-- ==== Sys2Proof/Word.lean ====
section
/-! DEFINITION. The word type of the hardware: every register, memory cell, operand byte and FL value is an
unsigned 8-bit number (00_scope.md R12, R14). -/

namespace Sys2Proof

/-- An unsigned 8-bit value, bits numbered 7 (most significant) to 0 (R14). -/
abbrev Byte := BitVec 8

end Sys2Proof
end

