-- ==== Sys2Proof/Syntax.lean ====
section
/-! DEFINITION. The closed enumeration of the 19 instructions (00_scope.md R2; 40_engine.md R110), one constructor for
each row of spec/opcode_table.json. An operand is the WHOLE operand byte (30_encoding.md R74): a register operand of
8..255 is a legal encoding, and faults only when that register is read or written (R75). -/

namespace Sys2Proof

/-- An instruction with its declared operand bytes, in the order of the encoded bytes (R74, R90). `a` and `b` are
register operands, `imm` is the immediate of LDI. -/
inductive Instr where
  | hlt
  | ldi  (a imm : Byte)
  | prn  (a : Byte)
  | push (a : Byte)
  | pop  (a : Byte)
  | call (a : Byte)
  | ret
  | cmp  (a b : Byte)
  | jmp  (a : Byte)
  | jeq  (a : Byte)
  | jne  (a : Byte)
  | add  (a b : Byte)
  | mul  (a b : Byte)
  | and  (a b : Byte)
  | or   (a b : Byte)
  | xor  (a b : Byte)
  | not  (a : Byte)
  | shl  (a b : Byte)
  | shr  (a b : Byte)
  deriving DecidableEq, Repr

end Sys2Proof
end

