-- ==== Sys2Proof/WellFormed.lean ====
section
/-! DEFINITION. Which instructions name only registers that exist. Every `Instr` can be encoded and decoded; a
WELL-FORMED one can also be written in assembly, where a register is written `R0` to `R7` (30_encoding.md R90). An
ill-formed one still has its meaning: a RegisterIndexFault where it accesses the register (R75). -/

namespace Sys2Proof

/-- The operand byte names a register: "It names register x[a] when a ≤ 7" (R75). -/
def namesRegister (a : Byte) : Bool := decide (a.toNat ≤ 7)

/-- Every register operand names a register; the immediate of LDI is any byte (R75, R90). -/
def Instr.wellFormed : Instr → Bool
  | .hlt | .ret => true
  | .ldi a _ => namesRegister a
  | .prn a | .push a | .pop a | .call a | .jmp a | .jeq a | .jne a | .not a => namesRegister a
  | .cmp a b | .add a b | .mul a b | .and a b | .or a b | .xor a b | .shl a b | .shr a b =>
    namesRegister a && namesRegister b

end Sys2Proof
end

