-- ==== Sys2Proof/Decode.lean ====
section
/-! DEFINITION. The instruction encoding (30_encoding.md): the opcode byte's fields, the one table of opcode values,
the decoder (total on any bytes, rejecting by name) and the encoder. -/

namespace Sys2Proof

/-- Opcode bits 7..6: how many operand bytes follow the opcode (R71, R73). -/
def numOperands (op : Byte) : Nat := ((op >>> 6) &&& 0b11).toNat

/-- Opcode bit 5: the instruction is routed through the ALU (R71, R73). -/
def isAlu (op : Byte) : Bool := (op >>> 5) &&& 1 == 1

/-- Opcode bit 4: the handler sets PC itself (R71, R73). -/
def setsPc (op : Byte) : Bool := (op >>> 4) &&& 1 == 1

/-- THE TABLE of opcode values (R78), the one place where they stand (G2). UNVERIFIED (log 5): the spec
adopts the LS-8 convention's values from general knowledge (D1), its source gives none; unsafe if the hardware used
others. -/
def opcode : Instr → Byte
  | .hlt => 0x01
  | .ldi _ _ => 0x82
  | .prn _ => 0x47
  | .push _ => 0x45
  | .pop _ => 0x46
  | .call _ => 0x50
  | .ret => 0x11
  | .cmp _ _ => 0xA7
  | .jmp _ => 0x54
  | .jeq _ => 0x55
  | .jne _ => 0x56
  | .add _ _ => 0xA0
  | .mul _ _ => 0xA2
  | .and _ _ => 0xA8
  | .or _ _ => 0xAA
  | .xor _ _ => 0xAB
  | .not _ => 0x69
  | .shl _ _ => 0xAC
  | .shr _ _ => 0xAD

/-- The 19 instruction kinds, each as a function of the two candidate operand bytes A and B; an undeclared operand is
dropped (R74, R76). -/
def kinds : List (Byte → Byte → Instr) :=
  [fun _ _ => .hlt, fun a b => .ldi a b, fun a _ => .prn a, fun a _ => .push a, fun a _ => .pop a,
   fun a _ => .call a, fun _ _ => .ret, fun a b => .cmp a b, fun a _ => .jmp a, fun a _ => .jeq a,
   fun a _ => .jne a, fun a b => .add a b, fun a b => .mul a b, fun a b => .and a b, fun a b => .or a b,
   fun a b => .xor a b, fun a _ => .not a, fun a b => .shl a b, fun a b => .shr a b]

/-- DISPATCH (R72, R110): the whole opcode byte is the key; a byte outside the table gives `none` (R82). -/
def dispatch (op : Byte) : Option (Byte → Byte → Instr) :=
  kinds.find? fun k => opcode (k 0 0) == op

/-- Why the decoder rejects a list of bytes. -/
inductive DecodeError where
  /-- There is no opcode byte. -/
  | noOpcode
  /-- The first byte is not in the dispatch table (R82). -/
  | invalidOpcode (op : Byte)
  /-- The opcode declares more operand bytes than follow it (R70). -/
  | missingOperand (op : Byte)
  deriving DecidableEq, Repr

/-- Reads one instruction from the front of a list of bytes and gives it with the bytes after it. The opcode byte alone
decides the instruction and its length (R70, R72), and an invalid opcode is rejected before any operand byte is looked
at (R82). -/
def decode : List Byte → Except DecodeError (Instr × List Byte)
  | [] => .error .noOpcode
  | op :: rest =>
    match dispatch op with
    | none => .error (.invalidOpcode op)
    | some k =>
      match numOperands op, rest with
      | 0, rest => .ok (k 0 0, rest)
      | 1, a :: rest => .ok (k a 0, rest)
      | 2, a :: b :: rest => .ok (k a b, rest)
      | _, _ => .error (.missingOperand op)

/-- The declared operand bytes of an instruction, byte 1 first (R74). -/
def operandBytes : Instr → List Byte
  | .hlt | .ret => []
  | .ldi a b => [a, b]
  | .prn a | .push a | .pop a | .call a | .jmp a | .jeq a | .jne a | .not a => [a]
  | .cmp a b | .add a b | .mul a b | .and a b | .or a b | .xor a b | .shl a b | .shr a b => [a, b]

/-- The bytes of an instruction at ascending addresses: the opcode, then operand A, then operand B (R54, R70, R74). -/
def encode (i : Instr) : List Byte := opcode i :: operandBytes i

/-- The bits of the opcode table's number `w` (bit 0 the least significant bit of the first byte), those from `nbits` up
taken as 0, as the three bytes that the longest instruction has (R70). -/
def tableWordBytes (nbits w : Nat) : List Byte :=
  let v := w % 2 ^ nbits
  [BitVec.ofNat 8 v, BitVec.ofNat 8 (v / 2 ^ 8), BitVec.ofNat 8 (v / 2 ^ 16)]

/-- The instruction the decoder reads from an instruction given as an opcode-table word. -/
def decodeTableWord (nbits w : Nat) : Option Instr :=
  match decode (tableWordBytes nbits w) with
  | .ok (i, _) => some i
  | .error _ => none

end Sys2Proof
end

