-- ==== Sys2Proof/Config.lean ====
section
/-! DEFINITION. What an implementation of the hardware fixes: the one behavioural parameter the spec leaves open, and
the fixed parameters of 00_scope.md R12 that the model names. -/

namespace Sys2Proof

/-- PREFETCH_OOB_FAULT (R13, R104; decision D7 leaves it OPEN): does the defensive read of an UNDECLARED operand byte
at an address above 255 fault? It has no body, so a claim about `Machine.step` holds for both values.
DESIGN CHOICE (log 4), safe. -/
opaque Config.prefetchOobFault : Bool

/-- Register 7 is the stack pointer (R12, R23). -/
abbrev Config.spIndex : Fin 8 := 7

/-- The value SP holds after reset (R12, R23). -/
abbrev Config.spReset : Byte := 0xF4

end Sys2Proof
end

