-- ==== Sys2Proof/Machine/Memory.lean ====
section
/-! DEFINITION. Memory: 256 cells of one byte (10_state.md R20, 20_memory.md R50), held as a list of the cells that are
not 0, in one canonical form. An unlisted address reads 0, as the loader's zero fill leaves it (R21). -/

namespace Sys2Proof.Machine

/-- The cells that are not 0, addresses strictly rising. -/
abbrev Memory := List Host.Cell

/-- The byte an unlisted address reads as: the loader fills the cells after the program with zero (R21). -/
def Memory.unlisted : Byte := 0

/-- The byte at an address. -/
def Memory.get : Memory → Nat → Byte
  | [], _ => Memory.unlisted
  | (k, v) :: rest, a => if k = a then v else Memory.get rest a

/-- A cell in front of the list, left out when it holds what an unlisted address reads as. -/
def Memory.cons (a : Nat) (v : Byte) (m : Memory) : Memory :=
  if v = Memory.unlisted then m else (a, v) :: m

/-- Memory with the byte `v` at address `a`. -/
def Memory.set : Memory → Nat → Byte → Memory
  | [], a, v => Memory.cons a v []
  | (k, w) :: rest, a, v =>
    if k < a then (k, w) :: Memory.set rest a v
    else if k = a then Memory.cons a v rest
    else Memory.cons a v ((k, w) :: rest)

/-- Every listed address is at least `lo` and at most 255, addresses rise strictly, and no cell holds what an unlisted
address reads as. -/
def Memory.wfFrom : Nat → Memory → Bool
  | _, [] => true
  | lo, (k, v) :: rest => decide (lo ≤ k) && decide (k ≤ 255) && (v != Memory.unlisted) && Memory.wfFrom (k + 1) rest

/-- The canonical form. -/
def Memory.wf (m : Memory) : Bool := Memory.wfFrom 0 m

/-- Memory holding `bytes` from address `lo` upwards. -/
def Memory.ofBytes : Nat → List Byte → Memory
  | _, [] => []
  | lo, v :: rest => Memory.cons lo v (Memory.ofBytes (lo + 1) rest)

/-- Memory holding the loaded 256-byte image MEM_IMAGE (R21). -/
def Memory.ofImage (image : Vector Byte 256) : Memory := Memory.ofBytes 0 image.toList

end Sys2Proof.Machine
end

