-- ==== Sys2Proof/Machine/State.lean ====
section
/-! DEFINITION. The whole architectural state (10_state.md R36), its reset (70_reset_and_hazards.md R291), and the
reasons a step can stop. The engine's latches IR, A and B live within one step only and are no part of it (R33). -/

namespace Sys2Proof.Machine

/-- The fault codes of 60_exceptions.md R261 to R266 (decision D23). -/
inductive FaultCode where
  | invalidOpcode
  | registerIndexFault
  | memoryBoundsFault
  | stackBoundsFault
  | returnAddressFault
  /-- Reserved: no instruction of this hardware can raise it (R266). -/
  | aluUnsupportedOp
  deriving DecidableEq, Repr

/-- A fault of the hardware with its info, as `Faulted(code, info)` records it (R31, R270). -/
inductive Cause where
  /-- Code 1, info (opcode byte, pc): the decode phase found a byte outside the dispatch table (R261). -/
  | invalidOpcode (op : Byte) (pc : Nat)
  /-- Code 2, info (index, pc): a register operand of 8..255 was to be read or written (R262). -/
  | registerIndex (index : Byte) (pc : Nat)
  /-- Code 3, info (address, pc): the fetch phase reached an address above 255 (R263). -/
  | memoryBounds (address pc : Nat)
  /-- Code 4, info (SP at the start of the instruction, pc): SP would leave 0..255 (R264). -/
  | stackBounds (sp : Byte) (pc : Nat)
  /-- Code 5, info (pc): CALL's return address does not fit a byte (R265). -/
  | returnAddress (pc : Nat)
  deriving DecidableEq, Repr

/-- STATUS (R31). `running` is the source's Running flag being set. -/
inductive Status where
  | running
  | halted
  | faulted (c : Cause)
  deriving DecidableEq, Repr

/-- The state record (R36). -/
@[ext]
structure State where
  /-- 256 byte cells, program and stack together (R20). -/
  mem : Memory
  /-- R0..R7; R7 is SP and has no other copy (R22, R23). -/
  regs : Vector Byte 8
  /-- The address of the next opcode: an unbounded natural that never wraps (R26, D5). -/
  pc : Nat
  /-- FL: bit 0 Equal, bit 1 Greater, bit 2 Less (R28). -/
  fl : Byte
  /-- Running, Halted or Faulted (R31). -/
  status : Status
  /-- OUT, the values PRN has emitted, oldest first (R32). -/
  out : List Byte
  deriving DecidableEq, Repr

/-- Why `step` answers no next state. A fault OF THE HARDWARE is no such stop: it is a next state whose STATUS is
Faulted (R270). -/
inductive Fault where
  /-- Raised by `step` alone, from STATUS = Halted: no step is enabled there (R100). Safe: no run goes on. -/
  | stepWhileHalted
  /-- Raised by `step` alone, from STATUS = Faulted: no step is enabled there (R100, R271). Safe: no run goes on. -/
  | stepWhileFaulted (c : Cause)
  deriving DecidableEq, Repr

/-- Why an instruction is refused. -/
inductive Refusal where
  /-- Raised by `exec` for an instruction without a meaning; every instruction has one, so it is never raised. Safe. -/
  | notModelled (mnemonic : String)
  deriving DecidableEq, Repr

/-- Reset with the three open reset parameters as arguments (R13, R291): INIT_GPR for R0..R6, INIT_FL, and MEM_IMAGE. -/
def State.resetWith (initGpr : Vector Byte 7) (initFl : Byte) (image : Vector Byte 256) : State where
  mem := Memory.ofImage image
  regs := initGpr.push Config.spReset
  pc := 0
  fl := initFl
  status := .running
  out := []

/-- Reset in the reference configuration (R13): R0..R6 and FL are 0. DESIGN CHOICE (log 2), unsafe: the spec leaves
these values open. No program is loaded, so memory lists nothing. DESIGN CHOICE (log 3), unsafe. -/
def State.reset : State where
  mem := []
  regs := #v[0, 0, 0, 0, 0, 0, 0, Config.spReset]
  pc := 0
  fl := 0
  status := .running
  out := []

end Sys2Proof.Machine
end

