-- ==== Sys2Proof/Machine/Ops.lean ====
section
/-! DEFINITION. The named operations over the state (00_scope.md R11, R15): registers, memory, flags, PC, OUT, and what
the engine does around a handler (40_engine.md R106; 60_exceptions.md R270). -/

namespace Sys2Proof.Machine

/-- What a meaning answers. -/
abbrev Answer := Host.Outcome State Fault Refusal

/-- What a handler gives: the state after its own effect, or the fault it raises before its first write (R105, R269). -/
abbrev Handled := Except Cause State

/-- `ReadReg(i)`, written `x[i]` (R11, R15). -/
def State.reg (s : State) (i : Fin 8) : Byte := s.regs[i]

/-- `WriteReg(i, v)` (R11, R15). -/
def State.setReg (s : State) (i : Fin 8) (v : Byte) : State := { s with regs := s.regs.set i v }

/-- `SP` abbreviates `x[7]` (R15, R23). -/
def State.sp (s : State) : Byte := s.reg Config.spIndex

/-- `SP <- v`. -/
def State.setSp (s : State) (v : Byte) : State := s.setReg Config.spIndex v

/-- `MemRead(addr, 1)` at a data address, which is a register's value and so never above 255 (R51, R53). -/
def State.load (s : State) (a : Byte) : Byte := s.mem.get a.toNat

/-- `MemWrite(addr, 1, v)`. Its address is 8 bits wide, so it cannot fault (R52). -/
def State.store (s : State) (a v : Byte) : State := { s with mem := s.mem.set a.toNat v }

/-- `pc <- target` (R15). -/
def State.setPc (s : State) (p : Nat) : State := { s with pc := p }

/-- `FL <- v`: the register is written whole (R11, R29). -/
def State.setFl (s : State) (v : Byte) : State := { s with fl := v }

/-- `Out(v)`: one value appended to OUT; it never fails (R15, R32, R137). -/
def State.emit (s : State) (v : Byte) : State := { s with out := s.out ++ [v] }

/-- The Running flag is cleared and the engine is `Halted` (R31, R108). -/
def State.halt (s : State) : State := { s with status := .halted }

/-- The code of a fault (R261 to R265). -/
def Cause.code : Cause → FaultCode
  | .invalidOpcode _ _ => .invalidOpcode
  | .registerIndex _ _ => .registerIndexFault
  | .memoryBounds _ _ => .memoryBoundsFault
  | .stackBounds _ _ => .stackBoundsFault
  | .returnAddress _ => .returnAddressFault

/-- The number of a fault code (R261 to R266). -/
def FaultCode.number : FaultCode → Nat
  | .invalidOpcode => 1
  | .registerIndexFault => 2
  | .memoryBoundsFault => 3
  | .stackBoundsFault => 4
  | .returnAddressFault => 5
  | .aluUnsupportedOp => 6

/-- The pc that a fault's info records (R261 to R265). -/
def Cause.pc : Cause → Nat
  | .invalidOpcode _ p | .registerIndex _ p | .memoryBounds _ p | .stackBounds _ p | .returnAddress p => p

/-- FAULT ENTRY, "raise" (R270): STATUS records the fault and nothing else changes. There is no handler to enter and no
return from a fault (R260, R271). -/
def State.raise (s : State) (c : Cause) : State := { s with status := .faulted c }

/-- The engine's PC update after a handler (R106): PC moves past the instruction unless the opcode's sets_pc bit says
that the handler has set PC itself. It never wraps (D5). -/
def State.retire (s : State) (i : Instr) : State :=
  if setsPc (opcode i) then s else s.setPc (s.pc + numOperands (opcode i) + 1)

/-- One instruction from its handler's result: the fault it raised is entered from the UNCHANGED state, so every fault
is precise (R269, R270); otherwise the engine's PC update follows (R106). -/
def complete (i : Instr) (s : State) : Handled → Answer
  | .error c => .next (s.raise c)
  | .ok t => .next (t.retire i)

end Sys2Proof.Machine
end

