-- ==== Sys2Proof/Machine/Operands.lean ====
section
/-! DEFINITION. The operand forms (30_encoding.md R74, R75), the stack operand, and the checks that guard them, each
written once for all instructions. -/

namespace Sys2Proof.Machine

/-- A register operand: the register it names, or RegisterIndexFault for 8..255 (R75, R262). -/
def regIndex (a : Byte) (s : State) : Except Cause (Fin 8) :=
  if h : a.toNat < 8 then .ok ⟨a.toNat, h⟩ else .error (.registerIndex a s.pc)

/-- The cell a push writes: the one below SP (R53, R150, R170). -/
def pushSlot (s : State) : Byte := s.sp - 1

/-- The first half of a push: SP is decremented, or StackBoundsFault when SP = 0 (R150, R170, R264). -/
def openSlot (s : State) : Handled :=
  if s.sp = 0 then .error (.stackBounds s.sp s.pc) else .ok (s.setSp (pushSlot s))

/-- An SP increment from `v`, or StackBoundsFault when it would give 256; the info is SP at the start of the instruction
(R155, R175, R264). -/
def increment (v : Byte) (s : State) : Except Cause Byte :=
  if v.toNat + 1 > 255 then .error (.stackBounds s.sp s.pc) else .ok (BitVec.ofNat 8 (v.toNat + 1))

/-- CALL's return address p + 2, or ReturnAddressFault when it does not fit a byte (R170, R265). -/
def returnAddress (s : State) : Except Cause Byte :=
  if s.pc + 2 > 255 then .error (.returnAddress s.pc) else .ok (BitVec.ofNat 8 (s.pc + 2))

/-- An ALU operation on two registers: A is checked before B, and the result goes to the first (R107, R222). -/
def binaryAlu (f : Byte → Byte → Byte) (a b : Byte) (s : State) : Handled := do
  let i ← regIndex a s
  let j ← regIndex b s
  return s.setReg i (f (s.reg i) (s.reg j))

/-- An ALU operation on one register; byte 2 is never looked at (R107, R234). -/
def unaryAlu (f : Byte → Byte) (a : Byte) (s : State) : Handled := do
  let i ← regIndex a s
  return s.setReg i (f (s.reg i))

/-- A jump to the address a register holds (R180). -/
def jumpTo (a : Byte) (s : State) : Handled := do
  let i ← regIndex a s
  return s.setPc (s.reg i).toNat

/-- A conditional jump: the register is accessed only when the branch is taken; otherwise PC moves past the operand
(R183, R187, R190). -/
def branch (taken : Bool) (a : Byte) (s : State) : Handled :=
  if taken then jumpTo a s else .ok (s.setPc (s.pc + 2))

end Sys2Proof.Machine
end

