-- ==== Sys2Proof/Machine/Alu.lean ====
section
/-! DEFINITION. The ALU operations ADD, MUL, AND, OR, XOR, NOT, SHL and SHR (45_alu.md). A result is computed exactly
over the natural numbers and reduced modulo 256 (R220). -/

namespace Sys2Proof.Machine

/-- ADD's result (R220, R222). -/
def aluAdd (x y : Byte) : Byte := BitVec.ofNat 8 (x.toNat + y.toNat)

/-- MUL's result: the low 8 bits of the unsigned product (R220, R225). -/
def aluMul (x y : Byte) : Byte := BitVec.ofNat 8 (x.toNat * y.toNat)

/-- AND's result (R228). -/
def aluAnd (x y : Byte) : Byte := x &&& y

/-- OR's result (R230). -/
def aluOr (x y : Byte) : Byte := x ||| y

/-- XOR's result (R232). -/
def aluXor (x y : Byte) : Byte := x ^^^ y

/-- NOT's result, the 8-bit complement (R234, C5). -/
def aluNot (x : Byte) : Byte := ~~~x

/-- SHL's result: shifted by the full amount 0..255, so 8 or more gives 0 (R220, R237). -/
def aluShl (x y : Byte) : Byte := BitVec.ofNat 8 (x.toNat <<< y.toNat)

/-- SHR's result: a logical shift by the full amount 0..255 (R240). -/
def aluShr (x y : Byte) : Byte := BitVec.ofNat 8 (x.toNat >>> y.toNat)

/-- ADD as a whole (R222). -/
def execAdd (a b : Byte) (s : State) : Answer := complete (.add a b) s (binaryAlu aluAdd a b s)

/-- MUL as a whole (R225). -/
def execMul (a b : Byte) (s : State) : Answer := complete (.mul a b) s (binaryAlu aluMul a b s)

/-- AND as a whole (R228). -/
def execAnd (a b : Byte) (s : State) : Answer := complete (.and a b) s (binaryAlu aluAnd a b s)

/-- OR as a whole (R230). -/
def execOr (a b : Byte) (s : State) : Answer := complete (.or a b) s (binaryAlu aluOr a b s)

/-- XOR as a whole (R232). -/
def execXor (a b : Byte) (s : State) : Answer := complete (.xor a b) s (binaryAlu aluXor a b s)

/-- NOT as a whole (R234). -/
def execNot (a : Byte) (s : State) : Answer := complete (.not a) s (unaryAlu aluNot a s)

/-- SHL as a whole (R237). -/
def execShl (a b : Byte) (s : State) : Answer := complete (.shl a b) s (binaryAlu aluShl a b s)

/-- SHR as a whole (R240). -/
def execShr (a b : Byte) (s : State) : Answer := complete (.shr a b) s (binaryAlu aluShr a b s)

end Sys2Proof.Machine
end

