-- ==== Sys2Proof/Machine/Flags.lean ====
section
/-! DEFINITION. The flags register FL (10_state.md R28): what CMP writes (44_compare.md R200) and what JEQ and JNE test
(R29). No other instruction reads or writes a flag (R221). -/

namespace Sys2Proof.Machine

/-- The new FL for the compared values: Equal is bit 0, Greater is bit 1, Less is bit 2, and bits 7..3 are 0; the values
are unsigned (R200, R202). -/
def compareFlags (v1 v2 : Byte) : Byte :=
  if v1 = v2 then 0b00000001
  else if v1.toNat < v2.toNat then 0b00000100
  else 0b00000010

/-- FL[0], the Equal flag; the other bits are ignored (R29, R183). -/
def equalFlag (fl : Byte) : Bool := fl.getLsbD 0

end Sys2Proof.Machine
end

