-- ==== Sys2Proof/Machine/Compare.lean ====
section
/-! DEFINITION. CMP (44_compare.md), the only writer of FL (10_state.md R29). -/

namespace Sys2Proof.Machine

/-- CMP: A is checked before B, and FL is overwritten whole (R200, R201). -/
def handleCmp (a b : Byte) (s : State) : Handled := do
  let i ← regIndex a s
  let j ← regIndex b s
  return s.setFl (compareFlags (s.reg i) (s.reg j))

/-- CMP as a whole (R200). -/
def execCmp (a b : Byte) (s : State) : Answer := complete (.cmp a b) s (handleCmp a b s)

end Sys2Proof.Machine
end

