-- ==== Sys2Proof/Machine/Control.lean ====
section
/-! DEFINITION. CALL, RET, JMP, JEQ and JNE (43_control_transfer.md). Each sets PC itself (R106). -/

namespace Sys2Proof.Machine

/-- CALL: the register index, SP and the return address are checked in that order; then the return address is pushed
and the target register is read, so CALL R7 jumps to the decremented SP (R170, R268). -/
def handleCall (a : Byte) (s : State) : Handled := do
  let i ← regIndex a s
  let t ← openSlot s
  let ret ← returnAddress s
  let u := t.store (pushSlot s) ret
  return u.setPc (u.reg i).toNat

/-- CALL as a whole (R170). -/
def execCall (a : Byte) (s : State) : Answer := complete (.call a) s (handleCall a s)

/-- RET: the byte at SP becomes PC, and SP is incremented (R175). -/
def handleRet (s : State) : Handled := do
  let sp ← increment s.sp s
  let v := s.load s.sp
  return (s.setSp sp).setPc v.toNat

/-- RET as a whole (R175). -/
def execRet (s : State) : Answer := complete .ret s (handleRet s)

/-- JMP (R180). -/
def execJmp (a : Byte) (s : State) : Answer := complete (.jmp a) s (jumpTo a s)

/-- JEQ: taken when the Equal flag is set (R183). -/
def execJeq (a : Byte) (s : State) : Answer := complete (.jeq a) s (branch (equalFlag s.fl) a s)

/-- JNE: taken when the Equal flag is clear (R187). -/
def execJne (a : Byte) (s : State) : Answer := complete (.jne a) s (branch (!equalFlag s.fl) a s)

end Sys2Proof.Machine
end

