-- ==== Sys2Proof/Machine/Stack.lean ====
section
/-! DEFINITION. PUSH and POP (42_stack.md). -/

namespace Sys2Proof.Machine

/-- PUSH: SP is decremented, then the register is read and stored there, so PUSH R7 stores the decremented SP (R150). -/
def handlePush (a : Byte) (s : State) : Handled := do
  let i ← regIndex a s
  let t ← openSlot s
  return t.store (pushSlot s) (t.reg i)

/-- PUSH as a whole (R150). -/
def execPush (a : Byte) (s : State) : Answer := complete (.push a) s (handlePush a s)

/-- POP: the byte at SP goes to the register, then SP, as it stands after that, is incremented, so POP R7 leaves SP at
the popped value plus 1 (R155). -/
def handlePop (a : Byte) (s : State) : Handled := do
  let i ← regIndex a s
  let v := s.load s.sp
  let sp ← increment (if i = Config.spIndex then v else s.sp) s
  return (s.setReg i v).setSp sp

/-- POP as a whole (R155). -/
def execPop (a : Byte) (s : State) : Answer := complete (.pop a) s (handlePop a s)

end Sys2Proof.Machine
end

