-- ==== Sys2Proof/Machine/System.lean ====
section
/-! DEFINITION. HLT, LDI and PRN (41_system_data.md). -/

namespace Sys2Proof.Machine

/-- HLT: the Running flag is cleared; the engine still advances PC (R130, R108). -/
def handleHlt (s : State) : Handled := .ok s.halt

/-- HLT as a whole (R130). -/
def execHlt (s : State) : Answer := complete .hlt s (handleHlt s)

/-- LDI: the immediate goes to the register unchanged and is never checked as an index (R133). -/
def handleLdi (a imm : Byte) (s : State) : Handled := do
  let i ← regIndex a s
  return s.setReg i imm

/-- LDI as a whole (R133). -/
def execLdi (a imm : Byte) (s : State) : Answer := complete (.ldi a imm) s (handleLdi a imm s)

/-- PRN: the register's value is appended to OUT (R136). -/
def handlePrn (a : Byte) (s : State) : Handled := do
  let i ← regIndex a s
  return s.emit (s.reg i)

/-- PRN as a whole (R136). -/
def execPrn (a : Byte) (s : State) : Answer := complete (.prn a) s (handlePrn a s)

end Sys2Proof.Machine
end

