-- ==== Sys2Proof/Machine/Fetch.lean ====
section
/-! DEFINITION. The fetch and decode phases of the step (40_engine.md R101 to R104), and the placing of an instruction
where they will find it. `oob` is PREFETCH_OOB_FAULT. -/

namespace Sys2Proof.Machine

/-- `MemRead(addr, 1)` at a fetch address, which may lie above 255 (R51, R58). -/
def fetchByte (s : State) (address : Nat) : Except Cause Byte :=
  if address > 255 then .error (.memoryBounds address s.pc) else .ok (s.mem.get address)

/-- The candidate operand byte k of an instruction with `n` declared ones (R103). An UNDECLARED byte above 255 faults or
reads 0, as PREFETCH_OOB_FAULT says (R104). -/
def fetchOperand (oob : Bool) (s : State) (n k : Nat) : Except Cause Byte :=
  if s.pc + k ≤ 255 ∨ k ≤ n ∨ oob then fetchByte s (s.pc + k) else .ok 0

/-- Fetch and decode: the opcode byte, then the invalid-opcode check, then both candidate operand bytes (R101 to R103). -/
def fetch (oob : Bool) (s : State) : Except Cause Instr := do
  let ir ← fetchByte s s.pc
  match dispatch ir with
  | none => throw (.invalidOpcode ir s.pc)
  | some k =>
    let a ← fetchOperand oob s (numOperands ir) 1
    let b ← fetchOperand oob s (numOperands ir) 2
    return k a b

/-- Memory with `bytes` from `address` upwards; bytes that would lie above 255 are dropped. -/
def placeBytes (m : Memory) (address : Nat) : List Byte → Memory
  | [] => m
  | v :: rest => if address > 255 then m else placeBytes (m.set address v) (address + 1) rest

end Sys2Proof.Machine
end

