-- ==== Sys2Proof/Machine/Step.lean ====
section
/-! DEFINITION. The step (40_engine.md R100, R109). -/

namespace Sys2Proof.Machine

/-- The step for a given PREFETCH_OOB_FAULT (R13: "The model takes each as an argument"). It is enabled only while
STATUS = Running (R100). A fault of the fetch phase is entered like every other fault (R270). -/
def stepWith (oob : Bool) (s : State) : Host.Outcome State Fault Refusal :=
  match s.status with
  | .halted => .fault .stepWhileHalted
  | .faulted c => .fault (.stepWhileFaulted c)
  | .running =>
    match fetch oob s with
    | .error c => .next (s.raise c)
    | .ok i => exec i s

/-- The step of this implementation, whatever its PREFETCH_OOB_FAULT is (log 4). -/
def step (s : State) : Host.Outcome State Fault Refusal := stepWith Config.prefetchOobFault s

/-- `s` with the instruction of an opcode-table word stored at PC, where `step` fetches next; the bits from `nbits` up are
0. A program comes to run by being loaded (log 3). -/
def State.withFetchWord (s : State) (nbits w : Nat) : State :=
  { s with mem := placeBytes s.mem s.pc (tableWordBytes nbits w) }

end Sys2Proof.Machine
end

