-- ==== Sys2Proof/Safety.lean ====
section
/-! DEFINITION. The terms claims are stated in: the operand byte of a register, the model's invariant, how a run ends
(40_engine.md R113), and a sequence of instructions run one after the other. -/

namespace Sys2Proof

/-- The operand byte that names register `i` (R75). The bytes 0..7 are these; every other byte names no register. -/
def regByte (i : Fin 8) : Byte := BitVec.ofNat 8 i.val

namespace Machine

/-- What holds of every state a run can reach, whatever the reset parameters: memory has its canonical form, PC is at
most 256 (R26), a recorded fault names the address PC still holds (R269), and a halted PC stands right after an HLT, whose
byte is 0x01 (R130). -/
structure State.Inv (s : State) : Prop where
  memCanonical : Memory.wf s.mem = true
  pcReachable : s.pc ≤ 256
  faultPrecise : ∀ c, s.status = .faulted c → c.pc = s.pc
  haltAdvanced : s.status = .halted → 1 ≤ s.pc ∧ s.mem.get (s.pc - 1) = 0x01

/-- The encoding entry of an instruction's rule: its opcode byte and operand bytes, the opcode's three fields (R71), and
that the bytes are read back as the instruction. -/
def EncodedAs (i : Instr) (op : Byte) (operands : List Byte) (alu spc : Bool) : Prop :=
  encode i = op :: operands ∧ decode (op :: operands) = .ok (i, []) ∧
    numOperands op = operands.length ∧ isAlu op = alu ∧ setsPc op = spc

/-- The running machine has the opcode `op` at its PC, inside memory. -/
structure AtOpcode (op : Byte) (s : State) : Prop where
  running : s.status = .running
  inside : s.pc ≤ 255
  here : s.mem.get s.pc = op

/-- A declared operand byte above 255 faults, whatever PREFETCH_OOB_FAULT is (R103, R263). The first byte past the top of
memory is at 256, whichever operand it is. -/
def DeclaredBytesBounded (op : Byte) (operands : Nat) : Prop :=
  ∀ oob s, AtOpcode op s → 255 < s.pc + operands →
    stepWith oob s = .next { s with status := .faulted (.memoryBounds 256 s.pc) }

/-- The bytes of memory from PC to the top. -/
def bytesAtPc (s : State) : List Byte := (List.range (256 - s.pc)).map fun k => s.mem.get (s.pc + k)

/-- The 19 opcode bytes of R78. -/
def validOpcodes : List Byte :=
  [0x01, 0x82, 0x47, 0x45, 0x46, 0x50, 0x11, 0xA7, 0x54, 0x55, 0x56, 0xA0, 0xA2, 0xA8, 0xAA, 0xAB, 0x69, 0xAC, 0xAD]

/-- The opcodes that access the register named by byte 1: always, or when the jump is taken (R262). -/
def accessesA (op fl : Byte) : Bool :=
  if op = 0x55 then fl.getLsbD 0
  else if op = 0x56 then !fl.getLsbD 0
  else op != 0x01 && op != 0x11

/-- The opcodes that access a register named by byte 2: CMP and the two-operand ALU operations (R74, R262). -/
def accessesB (op : Byte) : Bool :=
  ([0xA7, 0xA0, 0xA2, 0xA8, 0xAA, 0xAB, 0xAC, 0xAD] : List Byte).contains op

/-- The first check of R268 that applies to a running state, in R268's order; when each applies is written from R261 to
R265 (and R104 for an undeclared operand byte). It mentions no meaning of an instruction. -/
def firstFault (oob : Bool) (s : State) : Option Cause :=
  let p := s.pc
  let op := s.mem.get p
  let a := s.mem.get (p + 1)
  let b := s.mem.get (p + 2)
  if 255 < p then some (.memoryBounds p p)
  else if op ∉ validOpcodes then some (.invalidOpcode op p)
  else if 255 < p + 1 ∧ (1 ≤ numOperands op ∨ oob = true) then some (.memoryBounds (p + 1) p)
  else if 255 < p + 2 ∧ (2 ≤ numOperands op ∨ oob = true) then some (.memoryBounds (p + 2) p)
  else if accessesA op s.fl = true ∧ 7 < a.toNat then some (.registerIndex a p)
  else if accessesB op = true ∧ 7 < b.toNat then some (.registerIndex b p)
  else if (op = 0x45 ∨ op = 0x50) ∧ s.reg 7 = 0 then some (.stackBounds (s.reg 7) p)
  else if op = 0x11 ∧ s.reg 7 = 255 then some (.stackBounds (s.reg 7) p)
  else if op = 0x46 ∧ (if a = 7 then s.mem.get (s.reg 7).toNat else s.reg 7) = 255 then some (.stackBounds (s.reg 7) p)
  else if op = 0x50 ∧ p = 254 then some (.returnAddress p)
  else none

/-- FL as CMP writes it: exactly one of the bits E, G and L, and nothing else (R200). -/
def oneFlag (fl : Byte) : Prop := fl = 0b001 ∨ fl = 0b010 ∨ fl = 0b100

/-- `k` steps of the machine from `s`, as the host's interface runs it; it stops where no step is enabled. -/
def run (k : Nat) (s : State) : Answer := core.run k s

/-- The run from `s` is in a state with STATUS = Halted after some number of steps (R113). -/
def Halts (s : State) : Prop := ∃ k t, run k s = .next t ∧ t.status = .halted

/-- The run from `s` is in a state with STATUS = Faulted after some number of steps (R113). -/
def EndsFaulted (s : State) : Prop := ∃ k t c, run k s = .next t ∧ t.status = .faulted c

/-- The run from `s` never ends: after every number of steps it is still Running (R113). -/
def RunsForEver (s : State) : Prop := ∀ k, ∃ t, run k s = .next t ∧ t.status = .running

/-- A safe run never ends in a fault (R113: a fault "never counts as a successful end"). -/
def SafeRun (s : State) : Prop := ¬ EndsFaulted s

/-- Instructions run one after the other, each by its meaning, wherever they stand in memory. -/
def execAll : List Instr → State → Answer
  | [], s => .next s
  | i :: rest, s =>
    match exec i s with
    | .next t => execAll rest t
    | .fault r => .fault r
    | .refused r => .refused r

end Machine

end Sys2Proof
end

