-- ==== Sys2Proof/Certificates/Slice0/Obligations.lean ====
section
/-! DEFINITION. The statements for the provers. Each docstring names the rule of spec/ that the statement formalises.
A fault is entered as a next state whose STATUS is Faulted (R270; log 1). A statement about `stepWith oob` for every
`oob` holds of `step`, which is `stepWith` at the body-less PREFETCH_OOB_FAULT (log 4). -/

open Sys2Proof Sys2Proof.Machine

/-! ### Encoding -/

/-- Decoding an encoded instruction gives it back with the bytes after it, for every instruction, every operand byte and
every byte that follows (R70, R74, R76). -/
def Obligations.DecodeInvertsEncode : Prop :=
  ∀ (i : Instr) (rest : List Byte), decode (encode i ++ rest) = .ok (i, rest)

/-- Bytes that decode are the encoding of what they decode to: no byte has two meanings (R72, R79). -/
def Obligations.EncodeInvertsDecode : Prop :=
  ∀ (bytes : List Byte) (i : Instr) (rest : List Byte), decode bytes = .ok (i, rest) → bytes = encode i ++ rest

/-- Words written out from the encodings of R78 and the examples of the instruction rules decode to the instruction they
stand for. -/
def Obligations.WordsDecodeToTheirInstruction : Prop :=
  decodeTableWord 24 0x080082 = some (.ldi 0 8) ∧ decodeTableWord 8 0x01 = some .hlt ∧
  decodeTableWord 16 0x0246 = some (.pop 2) ∧ decodeTableWord 16 0x0554 = some (.jmp 5) ∧
  decodeTableWord 24 0x0100A7 = some (.cmp 0 1) ∧ decodeTableWord 24 0x0201AC = some (.shl 1 2) ∧
  decodeTableWord 16 0x0169 = some (.not 1) ∧ decodeTableWord 24 0x0100A1 = none

/-- The opcode's fields agree with the instruction: bits 7..6 count its operand bytes, bit 4 is set exactly for the five
control transfers, and bit 5 exactly for the eight ALU operations and CMP (R79, derived there from R71 and R78). -/
def Obligations.OpcodeFieldsAgreeWithInstruction : Prop :=
  ∀ i : Instr,
    (encode i).length = 1 + numOperands (opcode i) ∧
    (setsPc (opcode i) = true ↔
      (∃ a, i = .call a) ∨ i = .ret ∨ (∃ a, i = .jmp a) ∨ (∃ a, i = .jeq a) ∨ (∃ a, i = .jne a)) ∧
    (isAlu (opcode i) = true ↔
      (∃ a b, i = .cmp a b ∨ i = .add a b ∨ i = .mul a b ∨ i = .and a b ∨ i = .or a b ∨ i = .xor a b ∨
        i = .shl a b ∨ i = .shr a b) ∨ (∃ a, i = .not a))

/-- The table has 19 different bytes, the opcodes of the instructions, so 237 of the 256 are invalid; 0x00 is, and so is
every byte with num_operands = 3. An invalid byte faults as an opcode before any operand byte is looked
at, so also at 254 and 255 and for both values of PREFETCH_OOB_FAULT (R82). -/
def Obligations.InvalidOpcodeFaultsFirst : Prop :=
  validOpcodes.Nodup ∧ validOpcodes.length = 19 ∧ (0x00 : Byte) ∉ validOpcodes ∧
  (∀ op ∈ validOpcodes, numOperands op ≠ 3) ∧
  (∀ op, op ∈ validOpcodes ↔ ∃ i, opcode i = op) ∧
  (∀ op, op ∉ validOpcodes → ∀ oob s, AtOpcode op s →
    stepWith oob s = .next { s with status := .faulted (.invalidOpcode op s.pc) })

/-! ### One statement for each instruction: its encoding, its result, its faults (exec answers a next state) -/

/-- HLT (R130). -/
def Obligations.HltHaltsAfterAdvancingPc : Prop :=
  EncodedAs .hlt 0x01 [] false false ∧
  (∀ s, exec .hlt s = .next { s with status := .halted, pc := s.pc + 1 }) ∧
  (∀ oob s, s.status = .running → 255 < s.pc →
    stepWith oob s = .next { s with status := .faulted (.memoryBounds s.pc s.pc) }) ∧
  (∀ s, AtOpcode 0x01 s → 254 ≤ s.pc →
    stepWith true s = .next { s with status := .faulted (.memoryBounds 256 s.pc) } ∧
    stepWith false s = .next { s with status := .halted, pc := s.pc + 1 })

/-- LDI (R133). -/
def Obligations.LdiLoadsImmediate : Prop :=
  (∀ a imm, EncodedAs (.ldi a imm) 0x82 [a, imm] false false) ∧
  (∀ r imm s, exec (.ldi (regByte r) imm) s = .next { s with regs := s.regs.set r imm, pc := s.pc + 3 }) ∧
  (∀ a imm s, 7 < a.toNat →
    exec (.ldi a imm) s = .next { s with status := .faulted (.registerIndex a s.pc) }) ∧
  DeclaredBytesBounded 0x82 2

/-- PRN (R136). -/
def Obligations.PrnAppendsRegisterToOutput : Prop :=
  (∀ a, EncodedAs (.prn a) 0x47 [a] false false) ∧
  (∀ r s, exec (.prn (regByte r)) s = .next { s with out := s.out ++ [s.reg r], pc := s.pc + 2 }) ∧
  (∀ a s, 7 < a.toNat → exec (.prn a) s = .next { s with status := .faulted (.registerIndex a s.pc) }) ∧
  DeclaredBytesBounded 0x47 1

/-- PUSH (R150): SP moves down by one and the register, read after that, is stored there. -/
def Obligations.PushStoresRegisterBelowSp : Prop :=
  (∀ a, EncodedAs (.push a) 0x45 [a] false false) ∧
  (∀ r s, s.reg 7 ≠ 0 →
    exec (.push (regByte r)) s = .next { s with
      regs := s.regs.set 7 (s.reg 7 - 1)
      mem := s.mem.set ((s.reg 7).toNat - 1) (if r = 7 then s.reg 7 - 1 else s.reg r)
      pc := s.pc + 2 }) ∧
  (∀ a s, 7 < a.toNat → exec (.push a) s = .next { s with status := .faulted (.registerIndex a s.pc) }) ∧
  (∀ r s, s.reg 7 = 0 →
    exec (.push (regByte r)) s = .next { s with status := .faulted (.stackBounds 0 s.pc) }) ∧
  DeclaredBytesBounded 0x45 1

/-- POP (R155): the byte at SP goes to the register, and SP, as it stands after that, moves up by one. -/
def Obligations.PopLoadsRegisterFromSp : Prop :=
  (∀ a, EncodedAs (.pop a) 0x46 [a] false false) ∧
  (∀ r s, r ≠ 7 → s.reg 7 ≠ 255 →
    exec (.pop (regByte r)) s = .next { s with
      regs := (s.regs.set r (s.mem.get (s.reg 7).toNat)).set 7 (s.reg 7 + 1)
      pc := s.pc + 2 }) ∧
  (∀ s, s.mem.get (s.reg 7).toNat ≠ 255 →
    exec (.pop (regByte 7)) s = .next { s with
      regs := s.regs.set 7 (s.mem.get (s.reg 7).toNat + 1)
      pc := s.pc + 2 }) ∧
  (∀ a s, 7 < a.toNat → exec (.pop a) s = .next { s with status := .faulted (.registerIndex a s.pc) }) ∧
  (∀ r s, r ≠ 7 → s.reg 7 = 255 →
    exec (.pop (regByte r)) s = .next { s with status := .faulted (.stackBounds 255 s.pc) }) ∧
  (∀ s, s.mem.get (s.reg 7).toNat = 255 →
    exec (.pop (regByte 7)) s = .next { s with status := .faulted (.stackBounds (s.reg 7) s.pc) }) ∧
  DeclaredBytesBounded 0x46 1

/-- CALL (R170): the return address p + 2 is pushed and PC takes the register, read after the push. The ORDER of its checks
is the model's reading (DEDUCED, log 7): R170 lists MemoryBoundsFault last, the model follows R109 and R268. On it rest the
last clause (a CALL at 255 faults on its operand byte, whatever SP is) and what exec answers at a PC of 255 or more. -/
def Obligations.CallPushesReturnAddressAndJumps : Prop :=
  (∀ a, EncodedAs (.call a) 0x50 [a] false true) ∧
  (∀ r s, s.reg 7 ≠ 0 → s.pc + 2 ≤ 255 →
    exec (.call (regByte r)) s = .next { s with
      regs := s.regs.set 7 (s.reg 7 - 1)
      mem := s.mem.set ((s.reg 7).toNat - 1) (BitVec.ofNat 8 (s.pc + 2))
      pc := (if r = 7 then s.reg 7 - 1 else s.reg r).toNat }) ∧
  (∀ a s, 7 < a.toNat → exec (.call a) s = .next { s with status := .faulted (.registerIndex a s.pc) }) ∧
  (∀ r s, s.reg 7 = 0 →
    exec (.call (regByte r)) s = .next { s with status := .faulted (.stackBounds 0 s.pc) }) ∧
  (∀ r s, s.reg 7 ≠ 0 → 255 < s.pc + 2 →
    exec (.call (regByte r)) s = .next { s with status := .faulted (.returnAddress s.pc) }) ∧
  DeclaredBytesBounded 0x50 1

/-- RET (R175). -/
def Obligations.RetPopsPc : Prop :=
  EncodedAs .ret 0x11 [] false true ∧
  (∀ s, s.reg 7 ≠ 255 →
    exec .ret s = .next { s with
      regs := s.regs.set 7 (s.reg 7 + 1)
      pc := (s.mem.get (s.reg 7).toNat).toNat }) ∧
  (∀ s, s.reg 7 = 255 → exec .ret s = .next { s with status := .faulted (.stackBounds 255 s.pc) }) ∧
  (∀ s, AtOpcode 0x11 s → 254 ≤ s.pc →
    stepWith true s = .next { s with status := .faulted (.memoryBounds 256 s.pc) } ∧ stepWith false s = exec .ret s)

/-- JMP (R180). -/
def Obligations.JmpSetsPcToRegister : Prop :=
  (∀ a, EncodedAs (.jmp a) 0x54 [a] false true) ∧
  (∀ r s, exec (.jmp (regByte r)) s = .next { s with pc := (s.reg r).toNat }) ∧
  (∀ a s, 7 < a.toNat → exec (.jmp a) s = .next { s with status := .faulted (.registerIndex a s.pc) }) ∧
  DeclaredBytesBounded 0x54 1

/-- JEQ (R183): taken exactly when FL[0] is 1, and the register is accessed only then. -/
def Obligations.JeqJumpsWhenEqual : Prop :=
  (∀ a, EncodedAs (.jeq a) 0x55 [a] false true) ∧
  (∀ r s, s.fl.getLsbD 0 = true → exec (.jeq (regByte r)) s = .next { s with pc := (s.reg r).toNat }) ∧
  (∀ a s, s.fl.getLsbD 0 = false → exec (.jeq a) s = .next { s with pc := s.pc + 2 }) ∧
  (∀ a s, s.fl.getLsbD 0 = true → 7 < a.toNat →
    exec (.jeq a) s = .next { s with status := .faulted (.registerIndex a s.pc) }) ∧
  DeclaredBytesBounded 0x55 1

/-- JNE (R187): taken exactly when FL[0] is 0, and the register is accessed only then. -/
def Obligations.JneJumpsWhenNotEqual : Prop :=
  (∀ a, EncodedAs (.jne a) 0x56 [a] false true) ∧
  (∀ r s, s.fl.getLsbD 0 = false → exec (.jne (regByte r)) s = .next { s with pc := (s.reg r).toNat }) ∧
  (∀ a s, s.fl.getLsbD 0 = true → exec (.jne a) s = .next { s with pc := s.pc + 2 }) ∧
  (∀ a s, s.fl.getLsbD 0 = false → 7 < a.toNat →
    exec (.jne a) s = .next { s with status := .faulted (.registerIndex a s.pc) }) ∧
  DeclaredBytesBounded 0x56 1

/-- CMP (R200): FL is overwritten whole by the unsigned comparison. -/
def Obligations.CmpOverwritesFlags : Prop :=
  (∀ a b, EncodedAs (.cmp a b) 0xA7 [a, b] true false) ∧
  (∀ i j s, s.reg i = s.reg j →
    exec (.cmp (regByte i) (regByte j)) s = .next { s with fl := 0b00000001, pc := s.pc + 3 }) ∧
  (∀ i j s, (s.reg i).toNat < (s.reg j).toNat →
    exec (.cmp (regByte i) (regByte j)) s = .next { s with fl := 0b00000100, pc := s.pc + 3 }) ∧
  (∀ i j s, (s.reg i).toNat > (s.reg j).toNat →
    exec (.cmp (regByte i) (regByte j)) s = .next { s with fl := 0b00000010, pc := s.pc + 3 }) ∧
  (∀ a b s, 7 < a.toNat → exec (.cmp a b) s = .next { s with status := .faulted (.registerIndex a s.pc) }) ∧
  (∀ i b s, 7 < b.toNat → exec (.cmp (regByte i) b) s = .next { s with status := .faulted (.registerIndex b s.pc) }) ∧
  DeclaredBytesBounded 0xA7 2

/-- ADD (R222): the sum modulo 256. -/
def Obligations.AddWritesSumModulo256 : Prop :=
  (∀ a b, EncodedAs (.add a b) 0xA0 [a, b] true false) ∧
  (∀ i j s, exec (.add (regByte i) (regByte j)) s = .next { s with
      regs := s.regs.set i (BitVec.ofNat 8 (((s.reg i).toNat + (s.reg j).toNat) % 256))
      pc := s.pc + 3 }) ∧
  (∀ a b s, 7 < a.toNat → exec (.add a b) s = .next { s with status := .faulted (.registerIndex a s.pc) }) ∧
  (∀ i b s, 7 < b.toNat → exec (.add (regByte i) b) s = .next { s with status := .faulted (.registerIndex b s.pc) }) ∧
  DeclaredBytesBounded 0xA0 2

/-- MUL (R225): the low 8 bits of the unsigned product. -/
def Obligations.MulWritesLowByteOfProduct : Prop :=
  (∀ a b, EncodedAs (.mul a b) 0xA2 [a, b] true false) ∧
  (∀ i j s, exec (.mul (regByte i) (regByte j)) s = .next { s with
      regs := s.regs.set i (BitVec.ofNat 8 (((s.reg i).toNat * (s.reg j).toNat) % 256))
      pc := s.pc + 3 }) ∧
  (∀ a b s, 7 < a.toNat → exec (.mul a b) s = .next { s with status := .faulted (.registerIndex a s.pc) }) ∧
  (∀ i b s, 7 < b.toNat → exec (.mul (regByte i) b) s = .next { s with status := .faulted (.registerIndex b s.pc) }) ∧
  DeclaredBytesBounded 0xA2 2

/-- AND (R228). -/
def Obligations.AndWritesBitwiseAnd : Prop :=
  (∀ a b, EncodedAs (.and a b) 0xA8 [a, b] true false) ∧
  (∀ i j s, exec (.and (regByte i) (regByte j)) s = .next { s with
      regs := s.regs.set i (s.reg i &&& s.reg j)
      pc := s.pc + 3 }) ∧
  (∀ a b s, 7 < a.toNat → exec (.and a b) s = .next { s with status := .faulted (.registerIndex a s.pc) }) ∧
  (∀ i b s, 7 < b.toNat → exec (.and (regByte i) b) s = .next { s with status := .faulted (.registerIndex b s.pc) }) ∧
  DeclaredBytesBounded 0xA8 2

/-- OR (R230). -/
def Obligations.OrWritesBitwiseOr : Prop :=
  (∀ a b, EncodedAs (.or a b) 0xAA [a, b] true false) ∧
  (∀ i j s, exec (.or (regByte i) (regByte j)) s = .next { s with
      regs := s.regs.set i (s.reg i ||| s.reg j)
      pc := s.pc + 3 }) ∧
  (∀ a b s, 7 < a.toNat → exec (.or a b) s = .next { s with status := .faulted (.registerIndex a s.pc) }) ∧
  (∀ i b s, 7 < b.toNat → exec (.or (regByte i) b) s = .next { s with status := .faulted (.registerIndex b s.pc) }) ∧
  DeclaredBytesBounded 0xAA 2

/-- XOR (R232). -/
def Obligations.XorWritesBitwiseXor : Prop :=
  (∀ a b, EncodedAs (.xor a b) 0xAB [a, b] true false) ∧
  (∀ i j s, exec (.xor (regByte i) (regByte j)) s = .next { s with
      regs := s.regs.set i (s.reg i ^^^ s.reg j)
      pc := s.pc + 3 }) ∧
  (∀ a b s, 7 < a.toNat → exec (.xor a b) s = .next { s with status := .faulted (.registerIndex a s.pc) }) ∧
  (∀ i b s, 7 < b.toNat → exec (.xor (regByte i) b) s = .next { s with status := .faulted (.registerIndex b s.pc) }) ∧
  DeclaredBytesBounded 0xAB 2

/-- NOT (R234): the 8-bit complement, 255 minus the value; byte 2 is not part of it. -/
def Obligations.NotWritesComplement : Prop :=
  (∀ a, EncodedAs (.not a) 0x69 [a] true false) ∧
  (∀ i s, exec (.not (regByte i)) s = .next { s with
      regs := s.regs.set i (BitVec.ofNat 8 (255 - (s.reg i).toNat))
      pc := s.pc + 2 }) ∧
  (∀ a s, 7 < a.toNat → exec (.not a) s = .next { s with status := .faulted (.registerIndex a s.pc) }) ∧
  DeclaredBytesBounded 0x69 1

/-- SHL (R237): shifted by the full amount 0..255, so the amount is never reduced modulo 8. -/
def Obligations.ShlShiftsByFullAmount : Prop :=
  (∀ a b, EncodedAs (.shl a b) 0xAC [a, b] true false) ∧
  (∀ i j s, exec (.shl (regByte i) (regByte j)) s = .next { s with
      regs := s.regs.set i (BitVec.ofNat 8 (((s.reg i).toNat * 2 ^ (s.reg j).toNat) % 256))
      pc := s.pc + 3 }) ∧
  (∀ a b s, 7 < a.toNat → exec (.shl a b) s = .next { s with status := .faulted (.registerIndex a s.pc) }) ∧
  (∀ i b s, 7 < b.toNat → exec (.shl (regByte i) b) s = .next { s with status := .faulted (.registerIndex b s.pc) }) ∧
  DeclaredBytesBounded 0xAC 2

/-- SHR (R240): a logical shift by the full amount 0..255. -/
def Obligations.ShrShiftsLogicallyByFullAmount : Prop :=
  (∀ a b, EncodedAs (.shr a b) 0xAD [a, b] true false) ∧
  (∀ i j s, exec (.shr (regByte i) (regByte j)) s = .next { s with
      regs := s.regs.set i (BitVec.ofNat 8 ((s.reg i).toNat / 2 ^ (s.reg j).toNat))
      pc := s.pc + 3 }) ∧
  (∀ a b s, 7 < a.toNat → exec (.shr a b) s = .next { s with status := .faulted (.registerIndex a s.pc) }) ∧
  (∀ i b s, 7 < b.toNat → exec (.shr (regByte i) b) s = .next { s with status := .faulted (.registerIndex b s.pc) }) ∧
  DeclaredBytesBounded 0xAD 2

/-! ### Frames: what an instruction leaves unchanged -/

/-- The instructions that write one register and nothing else but PC leave every other register, FL, OUT and every byte
of memory as they were; STATUS changes only by a fault of the instruction itself (R24, R221). -/
def Obligations.RegisterWritersFrame : Prop :=
  ∀ (a b : Byte) (s t : State),
    (exec (.ldi a b) s = .next t ∨ exec (.add a b) s = .next t ∨ exec (.mul a b) s = .next t ∨
     exec (.and a b) s = .next t ∨ exec (.or a b) s = .next t ∨ exec (.xor a b) s = .next t ∨
     exec (.not a) s = .next t ∨ exec (.shl a b) s = .next t ∨ exec (.shr a b) s = .next t) →
    (∀ r : Fin 8, a ≠ regByte r → t.reg r = s.reg r) ∧
    t.fl = s.fl ∧ t.out = s.out ∧ (∀ x, t.mem.get x = s.mem.get x) ∧
    (t.status = s.status ∨ ∃ c, c.code = .registerIndexFault ∧ t = { s with status := .faulted c })

/-- HLT, PRN, CMP, JMP, JEQ and JNE write no register and no byte of memory; only CMP writes FL, only PRN writes OUT, and
only HLT or a fault of the instruction writes STATUS (R24, R29, R32). -/
def Obligations.NonWritersFrame : Prop :=
  ∀ (a b : Byte) (i : Instr) (s t : State), exec i s = .next t →
    (i = .hlt ∨ i = .prn a ∨ i = .cmp a b ∨ i = .jmp a ∨ i = .jeq a ∨ i = .jne a) →
    (∀ r : Fin 8, t.reg r = s.reg r) ∧ (∀ x, t.mem.get x = s.mem.get x) ∧
    (i ≠ .cmp a b → t.fl = s.fl) ∧ (i ≠ .prn a → t.out = s.out) ∧
    (i ≠ .hlt → t.status = s.status ∨ ∃ c, c.code = .registerIndexFault ∧ t = { s with status := .faulted c })

/-- POP writes its register and SP, RET writes SP; every other register, FL, OUT and every byte of memory stay as they
were: a pop does not clear the cell it reads (R24, R155, R175). -/
def Obligations.PopAndRetFrame : Prop :=
  (∀ (a : Byte) (s t : State), exec (.pop a) s = .next t →
    (∀ r : Fin 8, r ≠ 7 → a ≠ regByte r → t.reg r = s.reg r) ∧
    t.fl = s.fl ∧ t.out = s.out ∧ (∀ x, t.mem.get x = s.mem.get x) ∧
    (t.status = s.status ∨ ∃ c, t = { s with status := .faulted c })) ∧
  (∀ (s t : State), exec .ret s = .next t →
    (∀ r : Fin 8, r ≠ 7 → t.reg r = s.reg r) ∧
    t.fl = s.fl ∧ t.out = s.out ∧ (∀ x, t.mem.get x = s.mem.get x) ∧
    (t.status = s.status ∨ ∃ c, t = { s with status := .faulted c }))

/-- PUSH and CALL write no register but SP and no byte of memory but the one at the slot below SP, computed as the
meanings compute it; FL and OUT stay as they were, and a fault of the instruction writes STATUS alone (R24, R53). -/
def Obligations.PushAndCallFrame : Prop :=
  ∀ (a : Byte) (s t : State), (exec (.push a) s = .next t ∨ exec (.call a) s = .next t) →
    (∀ r : Fin 8, r ≠ 7 → t.reg r = s.reg r) ∧
    (∀ slot, slot = pushSlot s → ∀ x, x ≠ slot.toNat → t.mem.get x = s.mem.get x) ∧
    t.fl = s.fl ∧ t.out = s.out ∧
    (t.status = s.status ∨ ∃ c, t = { s with status := .faulted c })

/-! ### The step -/

/-- When the bytes from PC to the top of memory decode to an instruction, the step is the meaning of that instruction at
that state, which moves PC itself. The one thing around it is the defensive read of an undeclared operand byte above
255, which faults when PREFETCH_OOB_FAULT is true (R104, R109). -/
def Obligations.StepRunsTheDecodedInstruction : Prop :=
  (∀ oob s i rest, s.status = .running → decode (bytesAtPc s) = .ok (i, rest) →
    stepWith oob s =
      if oob = true ∧ 255 < s.pc + 2 then .next { s with status := .faulted (.memoryBounds 256 s.pc) } else exec i s) ∧
  (∀ s, step s = stepWith Config.prefetchOobFault s)

/-- Fetch (R101): a PC above 255 raises MemoryBoundsFault; otherwise the opcode byte is the byte of memory at PC, and
PC = 255 is a legal fetch address: an HLT there runs. -/
def Obligations.FetchAboveMemoryFaults : Prop :=
  (∀ oob s, s.status = .running → 255 < s.pc →
    stepWith oob s = .next { s with status := .faulted (.memoryBounds s.pc s.pc) }) ∧
  (∀ s, s.pc ≤ 255 → fetchByte s s.pc = .ok (s.mem.get s.pc)) ∧
  (∀ s, s.status = .running → s.pc = 255 → s.mem.get 255 = 0x01 → stepWith false s = exec .hlt s)

/-- An undeclared operand byte above 255 (R104): with PREFETCH_OOB_FAULT the step faults; without it the step is the
meaning of the instruction, whatever the missing byte would be. Only a 1-byte instruction at 254 or 255 and a 2-byte one
at 254 are concerned: a 2-byte one at 255 and a 3-byte one at 254 or 255 fault on a declared byte. -/
def Obligations.UndeclaredOperandAboveMemory : Prop :=
  (∀ op s, AtOpcode op s → op ∈ validOpcodes → s.pc + numOperands op ≤ 255 → 255 < s.pc + 2 →
    ((numOperands op = 0 ∧ (s.pc = 254 ∨ s.pc = 255)) ∨ (numOperands op = 1 ∧ s.pc = 254)) ∧
    stepWith true s = .next { s with status := .faulted (.memoryBounds 256 s.pc) } ∧
    ∃ i, decode (bytesAtPc s) = .ok (i, (bytesAtPc s).drop (1 + numOperands op)) ∧ stepWith false s = exec i s) ∧
  (∀ op oob s, AtOpcode op s → op ∈ validOpcodes →
    (numOperands op = 1 ∧ s.pc = 255) ∨ (numOperands op = 2 ∧ (s.pc = 254 ∨ s.pc = 255)) →
    stepWith oob s = .next { s with status := .faulted (.memoryBounds 256 s.pc) }) ∧
  (∀ op oob s, AtOpcode op s → op ∈ validOpcodes → s.pc ≤ 253 → stepWith oob s = stepWith (!oob) s)

/-- PC update (R106, R26): after an instruction that does not set PC itself, PC has moved past it; every next state that
is not a fault has a PC of at most 256, and one after a control transfer has a byte value or p + 2. -/
def Obligations.PcAdvancesPastTheInstruction : Prop :=
  ∀ s t, step s = .next t → (∀ c, t.status ≠ .faulted c) →
    (setsPc (s.mem.get s.pc) = false → t.pc = s.pc + numOperands (s.mem.get s.pc) + 1) ∧
    (setsPc (s.mem.get s.pc) = true → t.pc ≤ 255 ∨ t.pc = s.pc + 2) ∧
    t.pc ≤ 256

/-- A running machine always has a next state: no instruction is refused, and none stops without an effect (R112). -/
def Obligations.RunningStepAnswersANextState : Prop :=
  ∀ s, s.status = .running → ∃ t, step s = .next t

/-- No step is enabled in Halted or Faulted (R100, R271). That the model's step then answers a host fault, and which, is
the model's choice (log 1). -/
def Obligations.TerminalStatesHaveNoStep : Prop :=
  (∀ s, s.status = .halted → step s = .fault .stepWhileHalted) ∧
  (∀ s c, s.status = .faulted c → step s = .fault (.stepWhileFaulted c))

/-! ### Faults -/

/-- A running step ends in Faulted exactly when one of the checks of R268 applies, and then with the FIRST that applies
in R268's order; when each check applies is said by R261 to R265, and by R104 for an undeclared operand byte. -/
def Obligations.ReportedFaultIsTheFirstInOrder : Prop :=
  ∀ oob s t, s.status = .running → stepWith oob s = .next t →
    ∀ c, t.status = .faulted c ↔ firstFault oob s = some c

/-- Fault entry (R269, R270): STATUS records the fault, nothing else changes, PC still holds the address the fault
records, and no further step is enabled. -/
def Obligations.FaultsArePrecise : Prop :=
  ∀ s t c, step s = .next t → t.status = .faulted c →
    t = { s with status := .faulted c } ∧ c.pc = s.pc ∧ ∀ u, step t ≠ .next u

/-- HLT is the only instruction that ends a run successfully: a step ends in Halted exactly when its opcode is HLT's and
it does not fault; a decode failure ends in Faulted (R131). -/
def Obligations.OnlyHltHalts : Prop :=
  (∀ s t, step s = .next t →
    (t.status = .halted ↔ s.mem.get s.pc = 0x01 ∧ ∀ c, t.status ≠ .faulted c)) ∧
  (∀ s t, step s = .next t → s.pc ≤ 255 → s.mem.get s.pc ∉ validOpcodes →
    ∃ c, c.code = .invalidOpcode ∧ c.code.number = 1 ∧ t.status = .faulted c)

/-! ### Whole-machine rules -/

/-- FL is written only by CMP, which overwrites it whole, and read only by JEQ and JNE, which test bit 0 alone: any other
step does the same from any other FL, and so do JEQ and JNE from an FL with the same bit 0 (R29). -/
def Obligations.FlagsWrittenByCmpReadByJumps : Prop :=
  (∀ s t, step s = .next t → s.mem.get s.pc ≠ 0xA7 → t.fl = s.fl) ∧
  (∀ s t, step s = .next t → s.mem.get s.pc = 0xA7 → (∀ c, t.status ≠ .faulted c) → oneFlag t.fl) ∧
  (∀ s t (f : Byte), step s = .next t →
    (s.mem.get s.pc = 0x55 ∨ s.mem.get s.pc = 0x56 → f.getLsbD 0 = s.fl.getLsbD 0) →
    step { s with fl := f } =
      .next { t with fl := if s.mem.get s.pc = 0xA7 ∧ t.status = .running then t.fl else f })

/-- OUT is empty at reset, and only PRN appends to it, one value at the end, the named register's (R32, R136). -/
def Obligations.OnlyPrnAppendsToOutput : Prop :=
  (∀ g f m, (State.resetWith g f m).out = []) ∧
  (∀ s t, step s = .next t → (s.mem.get s.pc ≠ 0x47 ∨ ∃ c, t.status = .faulted c) → t.out = s.out) ∧
  (∀ s t, step s = .next t → s.mem.get s.pc = 0x47 → (∀ c, t.status ≠ .faulted c) →
    ∃ r, s.mem.get (s.pc + 1) = regByte r ∧ t.out = s.out ++ [s.reg r])

/-- A byte of memory changes only by PUSH and CALL, and only the one below SP, at an address of at most 254 (R52, R53). -/
def Obligations.OnlyPushAndCallChangeMemory : Prop :=
  ∀ s t x, step s = .next t → t.mem.get x ≠ s.mem.get x →
    (s.mem.get s.pc = 0x45 ∨ s.mem.get s.pc = 0x50) ∧ x + 1 = (s.reg 7).toNat ∧ x ≤ 254

/-- What a step does to registers, PC, FL, STATUS and OUT depends, of all memory, only on the opcode, on its DECLARED
operand bytes, and for POP and RET on the cell at SP (R53, R76). -/
def Obligations.StepReadsOnlyDeclaredBytesAndStackTop : Prop :=
  ∀ (s : State) (m : Memory) (t : State), step s = .next t →
    (∀ k, k ≤ numOperands (s.mem.get s.pc) → m.get (s.pc + k) = s.mem.get (s.pc + k)) →
    (s.mem.get s.pc = 0x46 ∨ s.mem.get s.pc = 0x11 → m.get (s.reg 7).toNat = s.mem.get (s.reg 7).toNat) →
    ∃ t', step { s with mem := m } = .next t' ∧
      t'.regs = t.regs ∧ t'.pc = t.pc ∧ t'.fl = t.fl ∧ t'.status = t.status ∧ t'.out = t.out

/-- A push onto the instruction's own operand byte does not affect that instruction, and the byte pushed is what the next
fetch from that address reads (R61). -/
def Obligations.PushOntoOwnOperandIsSeenNextTime : Prop :=
  ∀ s r, Memory.wf s.mem = true → AtOpcode 0x45 s → s.pc ≤ 253 → s.mem.get (s.pc + 1) = regByte r → r ≠ 7 →
    (s.reg 7).toNat = s.pc + 2 →
    ∃ t, step s = .next t ∧ t.status = .running ∧ fetchByte t (s.pc + 1) = .ok (s.reg r) ∧
      ∀ x, x ≠ s.pc + 1 → t.mem.get x = s.mem.get x

/-! ### Invariants and reset -/

/-- Every step keeps the invariant: memory canonical, PC at most 256, a recorded fault at the PC, and a halted PC right
after the byte 0x01 of an HLT. -/
def Obligations.StepKeepsTheInvariant : Prop :=
  ∀ s t, s.Inv → step s = .next t → t.Inv

/-- Reset meets the invariant, for every value of the reset parameters and in the reference configuration. -/
def Obligations.ResetMeetsTheInvariant : Prop :=
  (∀ g f m, (State.resetWith g f m).Inv) ∧ State.reset.Inv

/-- Whatever value INIT_FL has, FL holds it or exactly one of the flags E, G and L, and every step keeps that (R29, R30,
R201). -/
def Obligations.FlagsStayInitialOrOneFlag : Prop :=
  ∀ (f0 : Byte) (s t : State), (s.fl = f0 ∨ oneFlag s.fl) → step s = .next t → (t.fl = f0 ∨ oneFlag t.fl)

/-- Reset (R291), for every value of its open parameters. -/
def Obligations.ResetSetsEveryPieceOfState : Prop :=
  ∀ (g : Vector Byte 7) (f : Byte) (m : Vector Byte 256),
    let s := State.resetWith g f m
    (∀ a : Fin 256, s.mem.get a = m[a]) ∧ s.reg 7 = 0xF4 ∧ (∀ r : Fin 7, s.reg r.castSucc = g[r]) ∧
    s.fl = f ∧ s.pc = 0 ∧ s.status = .running ∧ s.out = []

/-- The model's own reset is the reference configuration with no program loaded: R0..R6, FL and every cell of memory are
0 (the model's choice, logs 2 and 3; R13 names the configuration). -/
def Obligations.ModelResetIsTheReferenceConfiguration : Prop :=
  State.reset = State.resetWith (Vector.replicate 7 0) 0 (Vector.replicate 256 0)

/-! ### Laws of sequences and runs -/

/-- N pushes followed by N pops, none of them of R7 and with room for the pushes, all complete, restore SP, and pop the
values in the reverse of the order they were pushed (R160, derived there from R150 and R155). -/
def Obligations.PushesThenPopsAreLastInFirstOut : Prop :=
  ∀ (pushed popped : List (Fin 8)) (s : State), Memory.wf s.mem = true →
    7 ∉ pushed → 7 ∉ popped → pushed.length = popped.length → pushed.length ≤ (s.reg 7).toNat →
    ∃ t, execAll ((pushed.map fun r => .push (regByte r)) ++ (popped.map fun r => .pop (regByte r))) s = .next t ∧
      t.reg 7 = s.reg 7 ∧ t.status = s.status ∧ t.fl = s.fl ∧ t.out = s.out ∧
      (popped.Nodup → ∀ (k : Nat) (r v : Fin 8), popped[k]? = some r → pushed.reverse[k]? = some v → t.reg r = s.reg v)

/-- A RET reached after a CALL with SP and the return-address cell as the CALL left them goes on right after the CALL's
operand and leaves SP as it was before the CALL (R191, derived there from R170 and R175). -/
def Obligations.RetReturnsAfterTheCall : Prop :=
  ∀ (a : Byte) (s t u : State), Memory.wf s.mem = true → exec (.call a) s = .next t →
    s.status = .running → t.status = .running → u.reg 7 = t.reg 7 →
    u.mem.get (t.reg 7).toNat = t.mem.get (t.reg 7).toNat →
    ∃ v, exec .ret u = .next v ∧ v.pc = s.pc + 2 ∧ v.reg 7 = s.reg 7 ∧ v.status = u.status

/-- A JMP whose target is its own address loops for ever: every number of steps leads back to the same state, so the run
is safe and never ends (R180, R113). -/
def Obligations.JumpToItselfRunsForEver : Prop :=
  ∀ s r, AtOpcode 0x54 s → s.pc ≤ 253 → s.mem.get (s.pc + 1) = regByte r → (s.reg r).toNat = s.pc →
    (∀ k, run k s = .next s) ∧ RunsForEver s ∧ SafeRun s

/-- A run ends in Halted, or ends in Faulted, or never ends, and no two of these (R113). -/
def Obligations.RunEndsInExactlyOneWay : Prop :=
  ∀ s, s.status = .running →
    (Halts s ∨ EndsFaulted s ∨ RunsForEver s) ∧
    ¬ (Halts s ∧ EndsFaulted s) ∧ ¬ (Halts s ∧ RunsForEver s) ∧ ¬ (EndsFaulted s ∧ RunsForEver s)
end

