-- ==== Sys2Proof/Laws/PerInstr.lean ====
section
/-! SUPPORT. Facts about each instruction as syntax, one lemma per constructor. -/

namespace Sys2Proof.Laws

/-- The opcode byte's num_operands field counts the declared operand bytes (R70, R71). -/
def DeclaredLength.Statement (i : Instr) : Prop := (operandBytes i).length = numOperands (opcode i)

/-- DISPATCH finds the instruction's opcode byte and rebuilds the instruction from its own operand bytes, whatever
stands in an undeclared one (R72, R76). -/
def Dispatched.Statement (i : Instr) : Prop :=
  ∃ k, dispatch (opcode i) = some k ∧
    k ((operandBytes i).getD 0 0) ((operandBytes i).getD 1 0) = i ∧
    (numOperands (opcode i) = 1 → ∀ b, k ((operandBytes i).getD 0 0) b = i) ∧
    (numOperands (opcode i) = 0 → ∀ a b, k a b = i)

theorem DeclaredLength.hlt : DeclaredLength.Statement .hlt :=
  (by decide : 0 = numOperands 0x01)
theorem DeclaredLength.ldi (a b : Byte) : DeclaredLength.Statement (.ldi a b) :=
  (by decide : 2 = numOperands 0x82)
theorem DeclaredLength.prn (a : Byte) : DeclaredLength.Statement (.prn a) :=
  (by decide : 1 = numOperands 0x47)
theorem DeclaredLength.push (a : Byte) : DeclaredLength.Statement (.push a) :=
  (by decide : 1 = numOperands 0x45)
theorem DeclaredLength.pop (a : Byte) : DeclaredLength.Statement (.pop a) :=
  (by decide : 1 = numOperands 0x46)
theorem DeclaredLength.call (a : Byte) : DeclaredLength.Statement (.call a) :=
  (by decide : 1 = numOperands 0x50)
theorem DeclaredLength.ret : DeclaredLength.Statement .ret :=
  (by decide : 0 = numOperands 0x11)
theorem DeclaredLength.cmp (a b : Byte) : DeclaredLength.Statement (.cmp a b) :=
  (by decide : 2 = numOperands 0xA7)
theorem DeclaredLength.jmp (a : Byte) : DeclaredLength.Statement (.jmp a) :=
  (by decide : 1 = numOperands 0x54)
theorem DeclaredLength.jeq (a : Byte) : DeclaredLength.Statement (.jeq a) :=
  (by decide : 1 = numOperands 0x55)
theorem DeclaredLength.jne (a : Byte) : DeclaredLength.Statement (.jne a) :=
  (by decide : 1 = numOperands 0x56)
theorem DeclaredLength.add (a b : Byte) : DeclaredLength.Statement (.add a b) :=
  (by decide : 2 = numOperands 0xA0)
theorem DeclaredLength.mul (a b : Byte) : DeclaredLength.Statement (.mul a b) :=
  (by decide : 2 = numOperands 0xA2)
theorem DeclaredLength.and (a b : Byte) : DeclaredLength.Statement (.and a b) :=
  (by decide : 2 = numOperands 0xA8)
theorem DeclaredLength.or (a b : Byte) : DeclaredLength.Statement (.or a b) :=
  (by decide : 2 = numOperands 0xAA)
theorem DeclaredLength.xor (a b : Byte) : DeclaredLength.Statement (.xor a b) :=
  (by decide : 2 = numOperands 0xAB)
theorem DeclaredLength.not (a : Byte) : DeclaredLength.Statement (.not a) :=
  (by decide : 1 = numOperands 0x69)
theorem DeclaredLength.shl (a b : Byte) : DeclaredLength.Statement (.shl a b) :=
  (by decide : 2 = numOperands 0xAC)
theorem DeclaredLength.shr (a b : Byte) : DeclaredLength.Statement (.shr a b) :=
  (by decide : 2 = numOperands 0xAD)

theorem Dispatched.hlt : Dispatched.Statement .hlt :=
  ⟨_, rfl, rfl, fun _ _ => rfl, fun _ _ _ => rfl⟩
theorem Dispatched.ldi (a b : Byte) : Dispatched.Statement (.ldi a b) :=
  ⟨_, rfl, rfl, fun h => absurd h (show ¬ numOperands 0x82 = 1 by decide), fun h => absurd h (show ¬ numOperands 0x82 = 0 by decide)⟩
theorem Dispatched.prn (a : Byte) : Dispatched.Statement (.prn a) :=
  ⟨_, rfl, rfl, fun _ _ => rfl, fun h => absurd h (show ¬ numOperands 0x47 = 0 by decide)⟩
theorem Dispatched.push (a : Byte) : Dispatched.Statement (.push a) :=
  ⟨_, rfl, rfl, fun _ _ => rfl, fun h => absurd h (show ¬ numOperands 0x45 = 0 by decide)⟩
theorem Dispatched.pop (a : Byte) : Dispatched.Statement (.pop a) :=
  ⟨_, rfl, rfl, fun _ _ => rfl, fun h => absurd h (show ¬ numOperands 0x46 = 0 by decide)⟩
theorem Dispatched.call (a : Byte) : Dispatched.Statement (.call a) :=
  ⟨_, rfl, rfl, fun _ _ => rfl, fun h => absurd h (show ¬ numOperands 0x50 = 0 by decide)⟩
theorem Dispatched.ret : Dispatched.Statement .ret :=
  ⟨_, rfl, rfl, fun _ _ => rfl, fun _ _ _ => rfl⟩
theorem Dispatched.cmp (a b : Byte) : Dispatched.Statement (.cmp a b) :=
  ⟨_, rfl, rfl, fun h => absurd h (show ¬ numOperands 0xA7 = 1 by decide), fun h => absurd h (show ¬ numOperands 0xA7 = 0 by decide)⟩
theorem Dispatched.jmp (a : Byte) : Dispatched.Statement (.jmp a) :=
  ⟨_, rfl, rfl, fun _ _ => rfl, fun h => absurd h (show ¬ numOperands 0x54 = 0 by decide)⟩
theorem Dispatched.jeq (a : Byte) : Dispatched.Statement (.jeq a) :=
  ⟨_, rfl, rfl, fun _ _ => rfl, fun h => absurd h (show ¬ numOperands 0x55 = 0 by decide)⟩
theorem Dispatched.jne (a : Byte) : Dispatched.Statement (.jne a) :=
  ⟨_, rfl, rfl, fun _ _ => rfl, fun h => absurd h (show ¬ numOperands 0x56 = 0 by decide)⟩
theorem Dispatched.add (a b : Byte) : Dispatched.Statement (.add a b) :=
  ⟨_, rfl, rfl, fun h => absurd h (show ¬ numOperands 0xA0 = 1 by decide), fun h => absurd h (show ¬ numOperands 0xA0 = 0 by decide)⟩
theorem Dispatched.mul (a b : Byte) : Dispatched.Statement (.mul a b) :=
  ⟨_, rfl, rfl, fun h => absurd h (show ¬ numOperands 0xA2 = 1 by decide), fun h => absurd h (show ¬ numOperands 0xA2 = 0 by decide)⟩
theorem Dispatched.and (a b : Byte) : Dispatched.Statement (.and a b) :=
  ⟨_, rfl, rfl, fun h => absurd h (show ¬ numOperands 0xA8 = 1 by decide), fun h => absurd h (show ¬ numOperands 0xA8 = 0 by decide)⟩
theorem Dispatched.or (a b : Byte) : Dispatched.Statement (.or a b) :=
  ⟨_, rfl, rfl, fun h => absurd h (show ¬ numOperands 0xAA = 1 by decide), fun h => absurd h (show ¬ numOperands 0xAA = 0 by decide)⟩
theorem Dispatched.xor (a b : Byte) : Dispatched.Statement (.xor a b) :=
  ⟨_, rfl, rfl, fun h => absurd h (show ¬ numOperands 0xAB = 1 by decide), fun h => absurd h (show ¬ numOperands 0xAB = 0 by decide)⟩
theorem Dispatched.not (a : Byte) : Dispatched.Statement (.not a) :=
  ⟨_, rfl, rfl, fun _ _ => rfl, fun h => absurd h (show ¬ numOperands 0x69 = 0 by decide)⟩
theorem Dispatched.shl (a b : Byte) : Dispatched.Statement (.shl a b) :=
  ⟨_, rfl, rfl, fun h => absurd h (show ¬ numOperands 0xAC = 1 by decide), fun h => absurd h (show ¬ numOperands 0xAC = 0 by decide)⟩
theorem Dispatched.shr (a b : Byte) : Dispatched.Statement (.shr a b) :=
  ⟨_, rfl, rfl, fun h => absurd h (show ¬ numOperands 0xAD = 1 by decide), fun h => absurd h (show ¬ numOperands 0xAD = 0 by decide)⟩

end Sys2Proof.Laws
end

