-- ==== Sys2Proof/Laws/Decode.lean ====
section
/-! SUPPORT. What the dispatch table and the decoder can answer. -/

namespace Sys2Proof

/-- The table is sound: the kind found for a byte builds only instructions with that opcode byte (R72). -/
theorem dispatch_sound {op : Byte} {k : Byte → Byte → Instr} (h : dispatch op = some k) (a b : Byte) :
    opcode (k a b) = op := by
  have h0 : opcode (k 0 0) = op := by simpa using List.find?_some h
  have hk := List.mem_of_find?_eq_some h
  simp only [kinds, List.mem_cons, List.not_mem_nil, or_false] at hk
  rcases hk with rfl | rfl | rfl | rfl | rfl | rfl | rfl | rfl | rfl | rfl | rfl | rfl | rfl | rfl | rfl | rfl | rfl |
    rfl | rfl <;> exact h0

/-- The table holds exactly the 19 bytes of R78. -/
theorem dispatch_eq_none_iff (op : Byte) : dispatch op = none ↔ op ∉ Machine.validOpcodes := by
  revert op
  decide

/-- A byte of the table has an instruction. -/
theorem dispatch_of_valid {op : Byte} (h : op ∈ Machine.validOpcodes) : ∃ k, dispatch op = some k :=
  Option.ne_none_iff_exists'.mp fun hn => (dispatch_eq_none_iff op).mp hn h

/-- DISPATCH on an instruction's own opcode byte finds its kind (R72, R110). -/
theorem dispatch_opcode (i : Instr) : Laws.Dispatched.Statement i := by
  cases i with
  | hlt => exact Laws.Dispatched.hlt
  | ldi a b => exact Laws.Dispatched.ldi a b
  | prn a => exact Laws.Dispatched.prn a
  | push a => exact Laws.Dispatched.push a
  | pop a => exact Laws.Dispatched.pop a
  | call a => exact Laws.Dispatched.call a
  | ret => exact Laws.Dispatched.ret
  | cmp a b => exact Laws.Dispatched.cmp a b
  | jmp a => exact Laws.Dispatched.jmp a
  | jeq a => exact Laws.Dispatched.jeq a
  | jne a => exact Laws.Dispatched.jne a
  | add a b => exact Laws.Dispatched.add a b
  | mul a b => exact Laws.Dispatched.mul a b
  | and a b => exact Laws.Dispatched.and a b
  | or a b => exact Laws.Dispatched.or a b
  | xor a b => exact Laws.Dispatched.xor a b
  | not a => exact Laws.Dispatched.not a
  | shl a b => exact Laws.Dispatched.shl a b
  | shr a b => exact Laws.Dispatched.shr a b

/-- The declared length of every instruction (R70). -/
theorem operandBytes_length (i : Instr) : Laws.DeclaredLength.Statement i := by
  cases i with
  | hlt => exact Laws.DeclaredLength.hlt
  | ldi a b => exact Laws.DeclaredLength.ldi a b
  | prn a => exact Laws.DeclaredLength.prn a
  | push a => exact Laws.DeclaredLength.push a
  | pop a => exact Laws.DeclaredLength.pop a
  | call a => exact Laws.DeclaredLength.call a
  | ret => exact Laws.DeclaredLength.ret
  | cmp a b => exact Laws.DeclaredLength.cmp a b
  | jmp a => exact Laws.DeclaredLength.jmp a
  | jeq a => exact Laws.DeclaredLength.jeq a
  | jne a => exact Laws.DeclaredLength.jne a
  | add a b => exact Laws.DeclaredLength.add a b
  | mul a b => exact Laws.DeclaredLength.mul a b
  | and a b => exact Laws.DeclaredLength.and a b
  | or a b => exact Laws.DeclaredLength.or a b
  | xor a b => exact Laws.DeclaredLength.xor a b
  | not a => exact Laws.DeclaredLength.not a
  | shl a b => exact Laws.DeclaredLength.shl a b
  | shr a b => exact Laws.DeclaredLength.shr a b

/-- A byte of the table declares at most two operand bytes (R71). -/
theorem numOperands_le_two {op : Byte} {k : Byte → Byte → Instr} (h : dispatch op = some k) : numOperands op ≤ 2 := by
  rw [← dispatch_sound h 0 0, ← operandBytes_length]
  cases k 0 0 <;> simp [operandBytes]

/-- The kind found for a byte declares the first operand bytes it is given, as many as the byte says (R74). -/
theorem operandBytes_kind {op : Byte} {k : Byte → Byte → Instr} (h : dispatch op = some k) (a b : Byte) :
    operandBytes (k a b) = [a, b].take (numOperands op) := by
  have hlen : (operandBytes (k a b)).length = numOperands op := by
    rw [operandBytes_length, dispatch_sound h]
  have hform : operandBytes (k a b) = [] ∨ operandBytes (k a b) = [a] ∨ operandBytes (k a b) = [a, b] := by
    have hk := List.mem_of_find?_eq_some h
    simp only [kinds, List.mem_cons, List.not_mem_nil, or_false] at hk
    rcases hk with rfl | rfl | rfl | rfl | rfl | rfl | rfl | rfl | rfl | rfl | rfl | rfl | rfl | rfl | rfl | rfl |
      rfl | rfl | rfl <;> simp [operandBytes]
  rw [← hlen]
  rcases hform with hf | hf | hf <;> rw [hf] <;> rfl

/-- A kind ignores an undeclared operand byte (R76). -/
theorem kind_ignores_undeclared {op : Byte} {k : Byte → Byte → Instr} (h : dispatch op = some k) {a b a' b' : Byte}
    (ha : 1 ≤ numOperands op → a = a') (hb : 2 ≤ numOperands op → b = b') : k a b = k a' b' := by
  have hn := numOperands_le_two h
  obtain ⟨k1, hk1, _, h1, h0⟩ := dispatch_opcode (k a b)
  rw [dispatch_sound h, h, Option.some.injEq] at hk1
  subst hk1
  rw [operandBytes_kind h] at h1
  rw [dispatch_sound h] at h1 h0
  rcases Nat.lt_or_ge 1 (numOperands op) with h2 | h2
  · rw [ha (by omega), hb h2]
  · by_cases hz : numOperands op = 0
    · rw [← h0 hz a' b']
    · have hone : numOperands op = 1 := by omega
      have := h1 hone b'
      rw [hone] at this
      simpa [ha (by omega)] using this.symm

/-- What the decoder gives for a valid opcode followed by enough bytes. -/
theorem decode_cons {op : Byte} {rest : List Byte} {k : Byte → Byte → Instr} (h : dispatch op = some k)
    (hl : numOperands op ≤ rest.length) :
    decode (op :: rest) = .ok (k (rest.getD 0 0) (rest.getD 1 0), rest.drop (numOperands op)) := by
  have hn := numOperands_le_two h
  obtain h0 | h1 | h2 : numOperands op = 0 ∨ numOperands op = 1 ∨ numOperands op = 2 := by omega
  · simp only [decode, h, h0, List.drop_zero, Except.ok.injEq, Prod.mk.injEq, and_true]
    exact kind_ignores_undeclared h (by omega) (by omega)
  · obtain _ | ⟨a, r⟩ := rest
    · simp [h1] at hl
    · simp only [decode, h, h1, List.drop_one, List.tail_cons, Except.ok.injEq, Prod.mk.injEq, and_true]
      exact kind_ignores_undeclared h (by simp) (by omega)
  · obtain _ | ⟨a, _ | ⟨b, r⟩⟩ := rest
    · simp [h2] at hl
    · simp [h2] at hl
    · simp [decode, h, h2]

/-- Everything the decoder can accept. -/
theorem decode_ok {bytes : List Byte} {i : Instr} {rest : List Byte} (h : decode bytes = .ok (i, rest)) :
    ∃ op tail k, bytes = op :: tail ∧ dispatch op = some k ∧ numOperands op ≤ tail.length ∧
      i = k (tail.getD 0 0) (tail.getD 1 0) ∧ rest = tail.drop (numOperands op) := by
  cases bytes with
  | nil => simp [decode] at h
  | cons op tail =>
    cases hd : dispatch op with
    | none => simp [decode, hd] at h
    | some k =>
      by_cases hl : numOperands op ≤ tail.length
      · rw [decode_cons hd hl] at h
        cases h
        exact ⟨op, tail, k, rfl, hd, hl, rfl, rfl⟩
      · exfalso
        obtain h0 | h1 | h2 : numOperands op = 0 ∨ numOperands op = 1 ∨ numOperands op = 2 := by
          have := numOperands_le_two hd
          omega
        · simp [h0] at hl
        · obtain _ | ⟨a, r⟩ := tail
          · simp [decode, hd, h1] at h
          · simp [h1] at hl
        · obtain _ | ⟨a, _ | ⟨b, r⟩⟩ := tail
          · simp [decode, hd, h2] at h
          · simp [decode, hd, h2] at h
          · simp [h2] at hl

end Sys2Proof
end

