-- ==== Sys2Proof/Laws/Operands.lean ====
section
/-! SUPPORT. One lemma per operand form: everything it can answer. -/

namespace Sys2Proof

@[simp] theorem regByte_toNat (i : Fin 8) : (regByte i).toNat = i.val := by
  have := i.isLt
  simp only [regByte, BitVec.toNat_ofNat]
  omega

/-- Every operand byte up to 7 is the operand byte of a register (R75). -/
theorem eq_regByte {a : Byte} (h : a.toNat < 8) : a = regByte ⟨a.toNat, h⟩ :=
  BitVec.eq_of_toNat_eq (by simp)

theorem regByte_injective {i j : Fin 8} (h : regByte i = regByte j) : i = j :=
  Fin.ext (by simpa using congrArg BitVec.toNat h)

/-- An operand byte names a register or is above 7 (R75). -/
theorem regByte_cases (a : Byte) : (∃ i, a = regByte i) ∨ 7 < a.toNat := by
  by_cases h : a.toNat < 8
  · exact .inl ⟨_, eq_regByte h⟩
  · exact .inr (by omega)

@[simp] theorem namesRegister_regByte (i : Fin 8) : namesRegister (regByte i) = true := by
  have := i.isLt
  simp only [namesRegister, regByte_toNat, decide_eq_true_eq]
  omega

namespace Machine

@[simp] theorem regIndex_regByte (i : Fin 8) (s : State) : regIndex (regByte i) s = .ok i := by
  simp [regIndex]

theorem regIndex_above {a : Byte} (h : 7 < a.toNat) (s : State) :
    regIndex a s = .error (.registerIndex a s.pc) := by
  have : ¬ a.toNat < 8 := by omega
  simp [regIndex, this]

theorem regIndex_ok {a : Byte} {s : State} {i : Fin 8} (h : regIndex a s = .ok i) : a = regByte i := by
  obtain ⟨j, rfl⟩ | hj := regByte_cases a
  · rw [regIndex_regByte, Except.ok.injEq] at h
    exact h ▸ rfl
  · rw [regIndex_above hj] at h
    cases h

theorem regIndex_error {a : Byte} {s : State} {c : Cause} (h : regIndex a s = .error c) :
    7 < a.toNat ∧ c = .registerIndex a s.pc := by
  obtain ⟨j, rfl⟩ | hj := regByte_cases a
  · rw [regIndex_regByte] at h
    cases h
  · rw [regIndex_above hj, Except.error.injEq] at h
    exact ⟨hj, h.symm⟩

theorem openSlot_zero {s : State} (h : s.sp = 0) : openSlot s = .error (.stackBounds 0 s.pc) := by
  simp [openSlot, h]

theorem openSlot_pos {s : State} (h : s.sp ≠ 0) : openSlot s = .ok (s.setSp (pushSlot s)) := if_neg h

theorem openSlot_ok {s t : State} (h : openSlot s = .ok t) : s.sp ≠ 0 ∧ t = s.setSp (pushSlot s) := by
  unfold openSlot at h
  split at h
  · cases h
  · cases h
    exact ⟨‹_›, rfl⟩

theorem openSlot_error {s : State} {c : Cause} (h : openSlot s = .error c) :
    s.sp = 0 ∧ c = .stackBounds s.sp s.pc := by
  unfold openSlot at h
  split at h
  · cases h
    exact ⟨‹_›, rfl⟩
  · cases h

/-- The slot a push writes lies in 0..254 (R52). -/
theorem pushSlot_toNat {s : State} (h : s.sp ≠ 0) : (pushSlot s).toNat = s.sp.toNat - 1 := by
  have h0 : s.sp.toNat ≠ 0 := fun hc => h (BitVec.eq_of_toNat_eq (by simpa using hc))
  have := s.sp.isLt
  have h1 : (1 : Byte).toNat = 1 := rfl
  simp only [pushSlot, BitVec.toNat_sub, h1]
  omega

theorem increment_ok {v : Byte} {s : State} {w : Byte} (h : increment v s = .ok w) :
    v.toNat < 255 ∧ w = v + 1 := by
  unfold increment at h
  split at h
  · cases h
  · cases h
    refine ⟨by omega, BitVec.eq_of_toNat_eq (by simp)⟩

theorem increment_error {v : Byte} {s : State} {c : Cause} (h : increment v s = .error c) :
    v = 255 ∧ c = .stackBounds s.sp s.pc := by
  unfold increment at h
  have := v.isLt
  split at h
  · cases h
    exact ⟨BitVec.eq_of_toNat_eq (show v.toNat = 255 by omega), rfl⟩
  · cases h

theorem increment_max (s : State) : increment 255 s = .error (.stackBounds s.sp s.pc) := rfl

theorem increment_below {v : Byte} (h : v ≠ 255) (s : State) : increment v s = .ok (v + 1) := by
  cases hv : increment v s with
  | error c => exact absurd (increment_error hv).1 h
  | ok w => rw [(increment_ok hv).2]

theorem returnAddress_ok {s : State} {w : Byte} (h : returnAddress s = .ok w) :
    s.pc + 2 ≤ 255 ∧ w = BitVec.ofNat 8 (s.pc + 2) := by
  unfold returnAddress at h
  split at h
  · cases h
  · cases h
    exact ⟨by omega, rfl⟩

theorem returnAddress_error {s : State} {c : Cause} (h : returnAddress s = .error c) :
    254 ≤ s.pc ∧ c = .returnAddress s.pc := by
  unfold returnAddress at h
  split at h
  · cases h
    exact ⟨by omega, rfl⟩
  · cases h

theorem returnAddress_fits {s : State} (h : s.pc + 2 ≤ 255) : returnAddress s = .ok (BitVec.ofNat 8 (s.pc + 2)) := by
  simp [returnAddress, Nat.not_lt.mpr h]

theorem returnAddress_above {s : State} (h : 254 ≤ s.pc) : returnAddress s = .error (.returnAddress s.pc) := by
  have : 255 < s.pc + 2 := by omega
  simp [returnAddress, this]

theorem binaryAlu_ok {f : Byte → Byte → Byte} {a b : Byte} {s t : State} (h : binaryAlu f a b s = .ok t) :
    ∃ i j, a = regByte i ∧ b = regByte j ∧ t = s.setReg i (f (s.reg i) (s.reg j)) := by
  cases hi : regIndex a s with
  | error c => simp [binaryAlu, hi, bind, Except.bind] at h
  | ok i =>
    cases hj : regIndex b s with
    | error c => simp [binaryAlu, hi, hj, bind, Except.bind] at h
    | ok j =>
      simp only [binaryAlu, hi, hj, bind, Except.bind, pure, Except.pure, Except.ok.injEq] at h
      exact ⟨i, j, regIndex_ok hi, regIndex_ok hj, h.symm⟩

@[simp] theorem binaryAlu_regByte (f : Byte → Byte → Byte) (i j : Fin 8) (s : State) :
    binaryAlu f (regByte i) (regByte j) s = .ok (s.setReg i (f (s.reg i) (s.reg j))) := by
  simp [binaryAlu, bind, Except.bind, pure, Except.pure]

theorem binaryAlu_aboveA {a : Byte} (h : 7 < a.toNat) (f : Byte → Byte → Byte) (b : Byte) (s : State) :
    binaryAlu f a b s = .error (.registerIndex a s.pc) := by
  rw [binaryAlu, regIndex_above h]
  rfl

theorem binaryAlu_aboveB {b : Byte} (h : 7 < b.toNat) (f : Byte → Byte → Byte) (i : Fin 8) (s : State) :
    binaryAlu f (regByte i) b s = .error (.registerIndex b s.pc) := by
  simp [binaryAlu, regIndex_above h, bind, Except.bind]

/-- The only fault of an ALU operation is a register index, of A or, if A is good, of B (R107, R262). -/
theorem binaryAlu_error {f : Byte → Byte → Byte} {a b : Byte} {s : State} {c : Cause}
    (h : binaryAlu f a b s = .error c) :
    (7 < a.toNat ∧ c = .registerIndex a s.pc) ∨ (a.toNat ≤ 7 ∧ 7 < b.toNat ∧ c = .registerIndex b s.pc) := by
  obtain ⟨i, rfl⟩ | ha := regByte_cases a
  · obtain ⟨j, rfl⟩ | hb := regByte_cases b
    · have hij : binaryAlu f (regByte i) (regByte j) s = .ok (s.setReg i (f (s.reg i) (s.reg j))) := by
        simp [binaryAlu, bind, Except.bind, pure, Except.pure]
      rw [hij] at h
      cases h
    · rw [binaryAlu_aboveB hb] at h
      cases h
      have := i.isLt
      exact .inr ⟨by rw [regByte_toNat]; omega, hb, rfl⟩
  · rw [binaryAlu_aboveA ha] at h
    cases h
    exact .inl ⟨ha, rfl⟩

theorem unaryAlu_error {f : Byte → Byte} {a : Byte} {s : State} {c : Cause} (h : unaryAlu f a s = .error c) :
    7 < a.toNat ∧ c = .registerIndex a s.pc := by
  obtain ⟨i, rfl⟩ | ha := regByte_cases a
  · simp [unaryAlu, bind, Except.bind, pure, Except.pure] at h
  · rw [unaryAlu, regIndex_above ha] at h
    cases h
    exact ⟨ha, rfl⟩

theorem unaryAlu_ok {f : Byte → Byte} {a : Byte} {s t : State} (h : unaryAlu f a s = .ok t) :
    ∃ i, a = regByte i ∧ t = s.setReg i (f (s.reg i)) := by
  cases hi : regIndex a s with
  | error c => simp [unaryAlu, hi, bind, Except.bind] at h
  | ok i =>
    simp only [unaryAlu, hi, bind, Except.bind, pure, Except.pure, Except.ok.injEq] at h
    exact ⟨i, regIndex_ok hi, h.symm⟩

@[simp] theorem unaryAlu_regByte (f : Byte → Byte) (i : Fin 8) (s : State) :
    unaryAlu f (regByte i) s = .ok (s.setReg i (f (s.reg i))) := by
  simp [unaryAlu, bind, Except.bind, pure, Except.pure]

theorem jumpTo_ok {a : Byte} {s t : State} (h : jumpTo a s = .ok t) :
    ∃ i, a = regByte i ∧ t = s.setPc (s.reg i).toNat := by
  cases hi : regIndex a s with
  | error c => simp [jumpTo, hi, bind, Except.bind] at h
  | ok i =>
    simp only [jumpTo, hi, bind, Except.bind, pure, Except.pure, Except.ok.injEq] at h
    exact ⟨i, regIndex_ok hi, h.symm⟩

@[simp] theorem jumpTo_regByte (i : Fin 8) (s : State) : jumpTo (regByte i) s = .ok (s.setPc (s.reg i).toNat) := by
  simp [jumpTo, bind, Except.bind, pure, Except.pure]

theorem jumpTo_above {a : Byte} (h : 7 < a.toNat) (s : State) : jumpTo a s = .error (.registerIndex a s.pc) := by
  rw [jumpTo, regIndex_above h]
  rfl

theorem jumpTo_error {a : Byte} {s : State} {c : Cause} (h : jumpTo a s = .error c) :
    7 < a.toNat ∧ c = .registerIndex a s.pc := by
  obtain ⟨i, rfl⟩ | ha := regByte_cases a
  · simp at h
  · rw [jumpTo_above ha] at h
    cases h
    exact ⟨ha, rfl⟩

theorem branch_error {taken : Bool} {a : Byte} {s : State} {c : Cause} (h : branch taken a s = .error c) :
    taken = true ∧ 7 < a.toNat ∧ c = .registerIndex a s.pc := by
  cases taken with
  | true => exact ⟨rfl, jumpTo_error (by simpa [branch] using h)⟩
  | false => simp [branch] at h

theorem branch_ok {taken : Bool} {a : Byte} {s t : State} (h : branch taken a s = .ok t) :
    (taken = true ∧ ∃ i, a = regByte i ∧ t = s.setPc (s.reg i).toNat) ∨ (taken = false ∧ t = s.setPc (s.pc + 2)) := by
  cases taken with
  | true => exact .inl ⟨rfl, jumpTo_ok (by simpa [branch] using h)⟩
  | false => exact .inr ⟨rfl, by simpa [branch] using h.symm⟩

/-- CMP writes exactly one of the three flags (R200, R201). -/
theorem compareFlags_oneFlag (v w : Byte) : oneFlag (compareFlags v w) := by
  unfold compareFlags oneFlag
  split_ifs <;> simp

end Machine

end Sys2Proof
end

