-- ==== Sys2Proof/Laws/Exec.lean ====
section
/-! SUPPORT. What one instruction can do: its handler as one function of the instruction, and the two ways a meaning
answers. Whole-machine proofs cite `exec_eq_complete` and split the handler, never the nineteen meanings. -/

namespace Sys2Proof.Machine

/-- The handler of each instruction (R105), collected from the meanings. -/
def handle : Instr → State → Handled
  | .hlt, s => handleHlt s
  | .ldi a imm, s => handleLdi a imm s
  | .prn a, s => handlePrn a s
  | .push a, s => handlePush a s
  | .pop a, s => handlePop a s
  | .call a, s => handleCall a s
  | .ret, s => handleRet s
  | .cmp a b, s => handleCmp a b s
  | .jmp a, s => jumpTo a s
  | .jeq a, s => branch (equalFlag s.fl) a s
  | .jne a, s => branch (!equalFlag s.fl) a s
  | .add a b, s => binaryAlu aluAdd a b s
  | .mul a b, s => binaryAlu aluMul a b s
  | .and a b, s => binaryAlu aluAnd a b s
  | .or a b, s => binaryAlu aluOr a b s
  | .xor a b, s => binaryAlu aluXor a b s
  | .not a, s => unaryAlu aluNot a s
  | .shl a b, s => binaryAlu aluShl a b s
  | .shr a b, s => binaryAlu aluShr a b s

/-- Every meaning is its handler, completed by the engine (R106, R270). -/
theorem exec_eq_complete (i : Instr) (s : State) : exec i s = complete i s (handle i s) := by
  cases i <;> rfl

theorem complete_ok {i : Instr} {s t : State} {h : Handled} (hh : h = .ok t) :
    complete i s h = .next (t.retire i) := by rw [hh]; rfl

theorem complete_error {i : Instr} {s : State} {h : Handled} {c : Cause} (hh : h = .error c) :
    complete i s h = .next (s.raise c) := by rw [hh]; rfl

/-- Everything a meaning can answer: a fault entered from the unchanged state, or the retired handler's state. -/
theorem exec_next_cases {i : Instr} {s t : State} (h : exec i s = .next t) :
    (∃ c, handle i s = .error c ∧ t = s.raise c) ∨ (∃ u, handle i s = .ok u ∧ t = u.retire i) := by
  rw [exec_eq_complete] at h
  cases hh : handle i s with
  | error c =>
    rw [complete_error hh] at h
    exact .inl ⟨c, rfl, by cases h; rfl⟩
  | ok u =>
    rw [complete_ok hh] at h
    exact .inr ⟨u, rfl, by cases h; rfl⟩

theorem retire_plain (s : State) (i : Instr) (n : Nat) (hp : setsPc (opcode i) = false)
    (hn : numOperands (opcode i) = n) : s.retire i = s.setPc (s.pc + (n + 1)) := by
  simp only [State.retire, hp, hn, Bool.false_eq_true, if_false, Nat.add_assoc]

/-- The engine's PC update for each instruction: the length of the instruction, or nothing after a control transfer. -/
@[simp] theorem retire_hlt (s : State) : s.retire .hlt = s.setPc (s.pc + 1) :=
  retire_plain s _ 0 (show setsPc 0x01 = false by decide) (show numOperands 0x01 = 0 by decide)
@[simp] theorem retire_ldi (s : State) (a b : Byte) : s.retire (.ldi a b) = s.setPc (s.pc + 3) :=
  retire_plain s _ 2 (show setsPc 0x82 = false by decide) (show numOperands 0x82 = 2 by decide)
@[simp] theorem retire_prn (s : State) (a : Byte) : s.retire (.prn a) = s.setPc (s.pc + 2) :=
  retire_plain s _ 1 (show setsPc 0x47 = false by decide) (show numOperands 0x47 = 1 by decide)
@[simp] theorem retire_push (s : State) (a : Byte) : s.retire (.push a) = s.setPc (s.pc + 2) :=
  retire_plain s _ 1 (show setsPc 0x45 = false by decide) (show numOperands 0x45 = 1 by decide)
@[simp] theorem retire_pop (s : State) (a : Byte) : s.retire (.pop a) = s.setPc (s.pc + 2) :=
  retire_plain s _ 1 (show setsPc 0x46 = false by decide) (show numOperands 0x46 = 1 by decide)
@[simp] theorem retire_call (s : State) (a : Byte) : s.retire (.call a) = s :=
  if_pos (show setsPc 0x50 = true by decide)
@[simp] theorem retire_ret (s : State) : s.retire .ret = s :=
  if_pos (show setsPc 0x11 = true by decide)
@[simp] theorem retire_cmp (s : State) (a b : Byte) : s.retire (.cmp a b) = s.setPc (s.pc + 3) :=
  retire_plain s _ 2 (show setsPc 0xA7 = false by decide) (show numOperands 0xA7 = 2 by decide)
@[simp] theorem retire_jmp (s : State) (a : Byte) : s.retire (.jmp a) = s :=
  if_pos (show setsPc 0x54 = true by decide)
@[simp] theorem retire_jeq (s : State) (a : Byte) : s.retire (.jeq a) = s :=
  if_pos (show setsPc 0x55 = true by decide)
@[simp] theorem retire_jne (s : State) (a : Byte) : s.retire (.jne a) = s :=
  if_pos (show setsPc 0x56 = true by decide)
@[simp] theorem retire_add (s : State) (a b : Byte) : s.retire (.add a b) = s.setPc (s.pc + 3) :=
  retire_plain s _ 2 (show setsPc 0xA0 = false by decide) (show numOperands 0xA0 = 2 by decide)
@[simp] theorem retire_mul (s : State) (a b : Byte) : s.retire (.mul a b) = s.setPc (s.pc + 3) :=
  retire_plain s _ 2 (show setsPc 0xA2 = false by decide) (show numOperands 0xA2 = 2 by decide)
@[simp] theorem retire_and (s : State) (a b : Byte) : s.retire (.and a b) = s.setPc (s.pc + 3) :=
  retire_plain s _ 2 (show setsPc 0xA8 = false by decide) (show numOperands 0xA8 = 2 by decide)
@[simp] theorem retire_or (s : State) (a b : Byte) : s.retire (.or a b) = s.setPc (s.pc + 3) :=
  retire_plain s _ 2 (show setsPc 0xAA = false by decide) (show numOperands 0xAA = 2 by decide)
@[simp] theorem retire_xor (s : State) (a b : Byte) : s.retire (.xor a b) = s.setPc (s.pc + 3) :=
  retire_plain s _ 2 (show setsPc 0xAB = false by decide) (show numOperands 0xAB = 2 by decide)
@[simp] theorem retire_not (s : State) (a : Byte) : s.retire (.not a) = s.setPc (s.pc + 2) :=
  retire_plain s _ 1 (show setsPc 0x69 = false by decide) (show numOperands 0x69 = 1 by decide)
@[simp] theorem retire_shl (s : State) (a b : Byte) : s.retire (.shl a b) = s.setPc (s.pc + 3) :=
  retire_plain s _ 2 (show setsPc 0xAC = false by decide) (show numOperands 0xAC = 2 by decide)
@[simp] theorem retire_shr (s : State) (a b : Byte) : s.retire (.shr a b) = s.setPc (s.pc + 3) :=
  retire_plain s _ 2 (show setsPc 0xAD = false by decide) (show numOperands 0xAD = 2 by decide)

/-- The faults of LDI's, PRN's and CMP's handlers (R262). -/
theorem handleLdi_error {a imm : Byte} {s : State} {c : Cause} (h : handleLdi a imm s = .error c) :
    7 < a.toNat ∧ c = .registerIndex a s.pc := by
  obtain ⟨i, rfl⟩ | ha := regByte_cases a
  · simp [handleLdi, bind, Except.bind, pure, Except.pure] at h
  · rw [handleLdi, regIndex_above ha] at h
    cases h
    exact ⟨ha, rfl⟩

theorem handlePrn_error {a : Byte} {s : State} {c : Cause} (h : handlePrn a s = .error c) :
    7 < a.toNat ∧ c = .registerIndex a s.pc := by
  obtain ⟨i, rfl⟩ | ha := regByte_cases a
  · simp [handlePrn, bind, Except.bind, pure, Except.pure] at h
  · rw [handlePrn, regIndex_above ha] at h
    cases h
    exact ⟨ha, rfl⟩

theorem handleCmp_error {a b : Byte} {s : State} {c : Cause} (h : handleCmp a b s = .error c) :
    (7 < a.toNat ∧ c = .registerIndex a s.pc) ∨ (a.toNat ≤ 7 ∧ 7 < b.toNat ∧ c = .registerIndex b s.pc) := by
  obtain ⟨i, rfl⟩ | ha := regByte_cases a
  · obtain ⟨j, rfl⟩ | hb := regByte_cases b
    · simp [handleCmp, bind, Except.bind, pure, Except.pure] at h
    · simp only [handleCmp, regIndex_regByte, regIndex_above hb, bind, Except.bind, Except.error.injEq] at h
      have := i.isLt
      exact .inr ⟨by rw [regByte_toNat]; omega, hb, h.symm⟩
  · rw [handleCmp, regIndex_above ha] at h
    cases h
    exact .inl ⟨ha, rfl⟩

/-- The faults of PUSH's handler, the register index first (R150, R268). -/
theorem handlePush_error {a : Byte} {s : State} {c : Cause} (h : handlePush a s = .error c) :
    (7 < a.toNat ∧ c = .registerIndex a s.pc) ∨ (a.toNat ≤ 7 ∧ s.sp = 0 ∧ c = .stackBounds s.sp s.pc) := by
  obtain ⟨i, rfl⟩ | ha := regByte_cases a
  · cases hu : openSlot s with
    | ok u => simp [handlePush, hu, bind, Except.bind, pure, Except.pure] at h
    | error c' =>
      simp only [handlePush, regIndex_regByte, hu, bind, Except.bind, Except.error.injEq] at h
      obtain ⟨hsp, rfl⟩ := openSlot_error hu
      have := i.isLt
      exact .inr ⟨by rw [regByte_toNat]; omega, hsp, h.symm⟩
  · rw [handlePush, regIndex_above ha] at h
    cases h
    exact .inl ⟨ha, rfl⟩

/-- The faults of POP's handler, the register index first (R155, R268). -/
theorem handlePop_error {a : Byte} {s : State} {c : Cause} (h : handlePop a s = .error c) :
    (7 < a.toNat ∧ c = .registerIndex a s.pc) ∨
      (a.toNat ≤ 7 ∧ (if a = regByte Config.spIndex then s.load s.sp else s.sp) = 255 ∧ c = .stackBounds s.sp s.pc) := by
  obtain ⟨i, rfl⟩ | ha := regByte_cases a
  · have hi : (regByte i = regByte Config.spIndex) = (i = Config.spIndex) :=
      propext ⟨regByte_injective, fun hi => hi ▸ rfl⟩
    cases hu : increment (if i = Config.spIndex then s.load s.sp else s.sp) s with
    | ok u => simp [handlePop, hu, bind, Except.bind, pure, Except.pure] at h
    | error c' =>
      simp only [handlePop, regIndex_regByte, hu, bind, Except.bind, Except.error.injEq] at h
      obtain ⟨hmax, rfl⟩ := increment_error hu
      have := i.isLt
      exact .inr ⟨by rw [regByte_toNat]; omega, by simpa only [hi] using hmax, h.symm⟩
  · rw [handlePop, regIndex_above ha] at h
    cases h
    exact .inl ⟨ha, rfl⟩

/-- The faults of CALL's handler, in their order (R170, R268). -/
theorem handleCall_error {a : Byte} {s : State} {c : Cause} (h : handleCall a s = .error c) :
    (7 < a.toNat ∧ c = .registerIndex a s.pc) ∨ (a.toNat ≤ 7 ∧ s.sp = 0 ∧ c = .stackBounds s.sp s.pc) ∨
      (a.toNat ≤ 7 ∧ s.sp ≠ 0 ∧ 254 ≤ s.pc ∧ c = .returnAddress s.pc) := by
  obtain ⟨i, rfl⟩ | ha := regByte_cases a
  · have hle : (regByte i).toNat ≤ 7 := by
      have := i.isLt
      rw [regByte_toNat]
      omega
    cases hu : openSlot s with
    | error c' =>
      simp only [handleCall, regIndex_regByte, hu, bind, Except.bind, Except.error.injEq] at h
      obtain ⟨hsp, rfl⟩ := openSlot_error hu
      exact .inr (.inl ⟨hle, hsp, h.symm⟩)
    | ok u =>
      cases hr : returnAddress s with
      | ok w => simp [handleCall, hu, hr, bind, Except.bind, pure, Except.pure] at h
      | error c' =>
        simp only [handleCall, regIndex_regByte, hu, hr, bind, Except.bind, Except.error.injEq] at h
        obtain ⟨hpc, rfl⟩ := returnAddress_error hr
        exact .inr (.inr ⟨hle, (openSlot_ok hu).1, hpc, h.symm⟩)
  · rw [handleCall, regIndex_above ha] at h
    cases h
    exact .inl ⟨ha, rfl⟩

/-- The fault of RET's handler (R175). -/
theorem handleRet_error {s : State} {c : Cause} (h : handleRet s = .error c) :
    s.sp = 255 ∧ c = .stackBounds s.sp s.pc := by
  cases hu : increment s.sp s with
  | ok u => simp [handleRet, hu, bind, Except.bind, pure, Except.pure] at h
  | error c' =>
    simp only [handleRet, hu, bind, Except.bind, Except.error.injEq] at h
    obtain ⟨hmax, rfl⟩ := increment_error hu
    exact ⟨hmax, h.symm⟩

/-- Everything LDI's handler can give. -/
theorem handleLdi_ok {a imm : Byte} {s t : State} (h : handleLdi a imm s = .ok t) :
    ∃ i, a = regByte i ∧ t = s.setReg i imm := by
  cases hi : regIndex a s with
  | error c => simp [handleLdi, hi, bind, Except.bind] at h
  | ok i =>
    simp only [handleLdi, hi, bind, Except.bind, pure, Except.pure, Except.ok.injEq] at h
    exact ⟨i, regIndex_ok hi, h.symm⟩

/-- Everything PRN's handler can give. -/
theorem handlePrn_ok {a : Byte} {s t : State} (h : handlePrn a s = .ok t) :
    ∃ i, a = regByte i ∧ t = s.emit (s.reg i) := by
  cases hi : regIndex a s with
  | error c => simp [handlePrn, hi, bind, Except.bind] at h
  | ok i =>
    simp only [handlePrn, hi, bind, Except.bind, pure, Except.pure, Except.ok.injEq] at h
    exact ⟨i, regIndex_ok hi, h.symm⟩

/-- Everything CMP's handler can give. -/
theorem handleCmp_ok {a b : Byte} {s t : State} (h : handleCmp a b s = .ok t) :
    ∃ i j, a = regByte i ∧ b = regByte j ∧ t = s.setFl (compareFlags (s.reg i) (s.reg j)) := by
  cases hi : regIndex a s with
  | error c => simp [handleCmp, hi, bind, Except.bind] at h
  | ok i =>
    cases hj : regIndex b s with
    | error c => simp [handleCmp, hi, hj, bind, Except.bind] at h
    | ok j =>
      simp only [handleCmp, hi, hj, bind, Except.bind, pure, Except.pure, Except.ok.injEq] at h
      exact ⟨i, j, regIndex_ok hi, regIndex_ok hj, h.symm⟩

/-- Everything PUSH's handler can give. -/
theorem handlePush_ok {a : Byte} {s t : State} (h : handlePush a s = .ok t) :
    ∃ i, a = regByte i ∧ s.sp ≠ 0 ∧
      t = (s.setSp (pushSlot s)).store (pushSlot s) ((s.setSp (pushSlot s)).reg i) := by
  cases hi : regIndex a s with
  | error c => simp [handlePush, hi, bind, Except.bind] at h
  | ok i =>
    cases hu : openSlot s with
    | error c => simp [handlePush, hi, hu, bind, Except.bind] at h
    | ok u =>
      simp only [handlePush, hi, hu, bind, Except.bind, pure, Except.pure, Except.ok.injEq] at h
      obtain ⟨hsp, rfl⟩ := openSlot_ok hu
      exact ⟨i, regIndex_ok hi, hsp, h.symm⟩

/-- Everything POP's handler can give. -/
theorem handlePop_ok {a : Byte} {s t : State} (h : handlePop a s = .ok t) :
    ∃ i, a = regByte i ∧ (if i = Config.spIndex then s.load s.sp else s.sp).toNat < 255 ∧
      t = (s.setReg i (s.load s.sp)).setSp ((if i = Config.spIndex then s.load s.sp else s.sp) + 1) := by
  cases hi : regIndex a s with
  | error c => simp [handlePop, hi, bind, Except.bind] at h
  | ok i =>
    cases hu : increment (if i = Config.spIndex then s.load s.sp else s.sp) s with
    | error c => simp [handlePop, hi, hu, bind, Except.bind] at h
    | ok u =>
      simp only [handlePop, hi, hu, bind, Except.bind, pure, Except.pure, Except.ok.injEq] at h
      obtain ⟨hlt, rfl⟩ := increment_ok hu
      exact ⟨i, regIndex_ok hi, hlt, h.symm⟩

/-- Everything CALL's handler can give. -/
theorem handleCall_ok {a : Byte} {s t : State} (h : handleCall a s = .ok t) :
    ∃ i, a = regByte i ∧ s.sp ≠ 0 ∧ s.pc + 2 ≤ 255 ∧
      t = ((s.setSp (pushSlot s)).store (pushSlot s) (BitVec.ofNat 8 (s.pc + 2))).setPc
        ((s.setSp (pushSlot s)).reg i).toNat := by
  cases hi : regIndex a s with
  | error c => simp [handleCall, hi, bind, Except.bind] at h
  | ok i =>
    cases hu : openSlot s with
    | error c => simp [handleCall, hi, hu, bind, Except.bind] at h
    | ok u =>
      cases hr : returnAddress s with
      | error c => simp [handleCall, hi, hu, hr, bind, Except.bind] at h
      | ok r =>
        simp only [handleCall, hi, hu, hr, bind, Except.bind, pure, Except.pure, Except.ok.injEq] at h
        obtain ⟨hsp, rfl⟩ := openSlot_ok hu
        obtain ⟨hpc, rfl⟩ := returnAddress_ok hr
        exact ⟨i, regIndex_ok hi, hsp, hpc, h.symm⟩

/-- Everything RET's handler can give. -/
theorem handleRet_ok {s t : State} (h : handleRet s = .ok t) :
    s.sp.toNat < 255 ∧ t = (s.setSp (s.sp + 1)).setPc (s.load s.sp).toNat := by
  cases hu : increment s.sp s with
  | error c => simp [handleRet, hu, bind, Except.bind] at h
  | ok u =>
    simp only [handleRet, hu, bind, Except.bind, pure, Except.pure, Except.ok.injEq] at h
    obtain ⟨hlt, rfl⟩ := increment_ok hu
    exact ⟨hlt, h.symm⟩

/-- A handler's fault records the PC of the instruction (R261 to R265). -/
theorem handle_error_pc {i : Instr} {s : State} {c : Cause} (h : handle i s = .error c) : c.pc = s.pc := by
  cases i <;> simp only [handle] at h
  case hlt => cases h
  case ldi => rw [(handleLdi_error h).2]; rfl
  case prn => rw [(handlePrn_error h).2]; rfl
  case push => obtain ⟨_, rfl⟩ | ⟨_, _, rfl⟩ := handlePush_error h <;> rfl
  case pop => obtain ⟨_, rfl⟩ | ⟨_, _, rfl⟩ := handlePop_error h <;> rfl
  case call => obtain ⟨_, rfl⟩ | ⟨_, _, rfl⟩ | ⟨_, _, _, rfl⟩ := handleCall_error h <;> rfl
  case ret => rw [(handleRet_error h).2]; rfl
  case cmp => obtain ⟨_, rfl⟩ | ⟨_, _, rfl⟩ := handleCmp_error h <;> rfl
  case jmp => rw [(jumpTo_error h).2]; rfl
  case jeq => rw [(branch_error h).2.2]; rfl
  case jne => rw [(branch_error h).2.2]; rfl
  case not => rw [(unaryAlu_error h).2]; rfl
  all_goals obtain ⟨_, rfl⟩ | ⟨_, _, rfl⟩ := binaryAlu_error h <;> rfl

/-- What a handler that raises no fault does to STATUS, FL, OUT and memory (R111). -/
structure HandlerEffect (i : Instr) (s u : State) : Prop where
  status : u.status = if i = .hlt then .halted else s.status
  fl : (∃ a b, i = .cmp a b ∧ oneFlag u.fl) ∨ ((∀ a b, i ≠ .cmp a b) ∧ u.fl = s.fl)
  out : (∃ r, i = .prn (regByte r) ∧ u.out = s.out ++ [s.reg r]) ∨ ((∀ a, i ≠ .prn a) ∧ u.out = s.out)
  mem : ((∃ a, i = .push a ∨ i = .call a) ∧ s.sp ≠ 0 ∧ ∃ v, u.mem = s.mem.set (pushSlot s).toNat v) ∨
    ((∀ a, i ≠ .push a ∧ i ≠ .call a) ∧ u.mem = s.mem)

theorem handle_ok_effect {i : Instr} {s u : State} (h : handle i s = .ok u) : HandlerEffect i s u := by
  cases i <;> simp only [handle] at h
  case hlt => cases h; exact ⟨rfl, .inr (by simp), .inr (by simp), .inr (by simp)⟩
  case ldi => obtain ⟨_, _, rfl⟩ := handleLdi_ok h; exact ⟨rfl, .inr (by simp), .inr (by simp), .inr (by simp)⟩
  case prn => obtain ⟨r, rfl, rfl⟩ := handlePrn_ok h; exact ⟨rfl, .inr (by simp), .inl ⟨r, rfl, rfl⟩, .inr (by simp)⟩
  case push =>
    obtain ⟨_, _, hsp, rfl⟩ := handlePush_ok h
    exact ⟨rfl, .inr (by simp), .inr (by simp), .inl ⟨⟨_, .inl rfl⟩, hsp, _, rfl⟩⟩
  case pop => obtain ⟨_, _, _, rfl⟩ := handlePop_ok h; exact ⟨rfl, .inr (by simp), .inr (by simp), .inr (by simp)⟩
  case call =>
    obtain ⟨_, _, hsp, _, rfl⟩ := handleCall_ok h
    exact ⟨rfl, .inr (by simp), .inr (by simp), .inl ⟨⟨_, .inr rfl⟩, hsp, _, rfl⟩⟩
  case ret => obtain ⟨_, rfl⟩ := handleRet_ok h; exact ⟨rfl, .inr (by simp), .inr (by simp), .inr (by simp)⟩
  case cmp =>
    obtain ⟨_, _, _, _, rfl⟩ := handleCmp_ok h
    exact ⟨rfl, .inl ⟨_, _, rfl, compareFlags_oneFlag _ _⟩, .inr (by simp), .inr (by simp)⟩
  case jmp => obtain ⟨_, _, rfl⟩ := jumpTo_ok h; exact ⟨rfl, .inr (by simp), .inr (by simp), .inr (by simp)⟩
  case jeq =>
    obtain ⟨_, _, _, rfl⟩ | ⟨_, rfl⟩ := branch_ok h <;>
      exact ⟨rfl, .inr (by simp), .inr (by simp), .inr (by simp)⟩
  case jne =>
    obtain ⟨_, _, _, rfl⟩ | ⟨_, rfl⟩ := branch_ok h <;>
      exact ⟨rfl, .inr (by simp), .inr (by simp), .inr (by simp)⟩
  case not => obtain ⟨_, _, rfl⟩ := unaryAlu_ok h; exact ⟨rfl, .inr (by simp), .inr (by simp), .inr (by simp)⟩
  all_goals
    obtain ⟨_, _, _, _, rfl⟩ := binaryAlu_ok h
    exact ⟨rfl, .inr (by simp), .inr (by simp), .inr (by simp)⟩

end Sys2Proof.Machine
end

