-- ==== Sys2Proof/Laws/Memory.lean ====
section
/-! SUPPORT. The laws of memory: a read after a write, and that every memory operation keeps the canonical form. -/

namespace Sys2Proof.Machine

theorem Memory.get_cons (a : Nat) (v : Byte) (m : Memory) (b : Nat) (h : m.get a = Memory.unlisted) :
    (Memory.cons a v m).get b = if a = b then v else m.get b := by
  unfold Memory.cons
  split
  · next hv => split <;> simp_all
  · rfl

/-- An address below every listed one is unlisted. -/
theorem Memory.get_of_wfFrom {m : Memory} {lo a : Nat} (h : Memory.wfFrom lo m = true) (ha : a < lo) :
    m.get a = Memory.unlisted := by
  induction m generalizing lo with
  | nil => rfl
  | cons c rest ih =>
    obtain ⟨k, v⟩ := c
    simp only [Memory.wfFrom, Bool.and_eq_true, decide_eq_true_eq] at h
    have hk : k ≠ a := by omega
    simpa [Memory.get, hk] using ih h.2 (by omega)

/-- A byte above 255 is never listed (R20: addresses 0..255). -/
theorem Memory.get_above {m : Memory} {lo a : Nat} (h : Memory.wfFrom lo m = true) (ha : 255 < a) :
    m.get a = Memory.unlisted := by
  induction m generalizing lo with
  | nil => rfl
  | cons c rest ih =>
    obtain ⟨k, v⟩ := c
    simp only [Memory.wfFrom, Bool.and_eq_true, decide_eq_true_eq] at h
    have hk : k ≠ a := by omega
    simpa [Memory.get, hk] using ih h.2

theorem Memory.wfFrom_mono {m : Memory} {lo lo' : Nat} (h : Memory.wfFrom lo m = true) (hl : lo' ≤ lo) :
    Memory.wfFrom lo' m = true := by
  cases m with
  | nil => rfl
  | cons c rest =>
    simp only [Memory.wfFrom, Bool.and_eq_true, decide_eq_true_eq] at h ⊢
    exact ⟨⟨⟨by omega, h.1.1.2⟩, h.1.2⟩, h.2⟩

theorem Memory.wfFrom_cons {m : Memory} {lo a : Nat} {v : Byte} (h : Memory.wfFrom (a + 1) m = true)
    (hl : lo ≤ a) (ha : a ≤ 255) : Memory.wfFrom lo (Memory.cons a v m) = true := by
  unfold Memory.cons
  split
  · exact Memory.wfFrom_mono h (by omega)
  · simp_all [Memory.wfFrom]

theorem Memory.wfFrom_set {m : Memory} {lo a : Nat} {v : Byte} (h : Memory.wfFrom lo m = true)
    (hl : lo ≤ a) (ha : a ≤ 255) : Memory.wfFrom lo (m.set a v) = true := by
  induction m generalizing lo with
  | nil => exact Memory.wfFrom_cons rfl hl ha
  | cons c rest ih =>
    obtain ⟨k, w⟩ := c
    have h' := h
    simp only [Memory.wfFrom, Bool.and_eq_true, decide_eq_true_eq] at h
    unfold Memory.set
    split
    · simp only [Memory.wfFrom, Bool.and_eq_true, decide_eq_true_eq]
      exact ⟨h.1, ih h.2 (by omega)⟩
    · split
      · next hk => exact Memory.wfFrom_cons (hk ▸ h.2) hl ha
      · refine Memory.wfFrom_cons ?_ hl ha
        simp only [Memory.wfFrom, Bool.and_eq_true, decide_eq_true_eq]
        exact ⟨⟨⟨by omega, h.1.1.2⟩, h.1.2⟩, h.2⟩

/-- A write keeps the canonical form. -/
theorem Memory.wf_set {m : Memory} {a : Nat} {v : Byte} (h : m.wf = true) (ha : a ≤ 255) : (m.set a v).wf = true :=
  Memory.wfFrom_set h (Nat.zero_le a) ha

theorem Memory.wfFrom_ofBytes (bytes : List Byte) (lo : Nat) (h : lo + bytes.length ≤ 256) :
    Memory.wfFrom lo (Memory.ofBytes lo bytes) = true := by
  induction bytes generalizing lo with
  | nil => rfl
  | cons v rest ih =>
    simp only [List.length_cons] at h
    exact Memory.wfFrom_cons (ih (lo + 1) (by omega)) (le_refl lo) (by omega)

/-- The loaded image has the canonical form, whatever its bytes. -/
theorem Memory.wf_ofImage (image : Vector Byte 256) : (Memory.ofImage image).wf = true :=
  Memory.wfFrom_ofBytes _ 0 (by simp)

/-- In a canonical memory a read gives the byte of the last write to its address (R59). -/
theorem Memory.get_set {m : Memory} {lo : Nat} (h : Memory.wfFrom lo m = true) (a : Nat) (v : Byte) (b : Nat) :
    (m.set a v).get b = if a = b then v else m.get b := by
  induction m generalizing lo with
  | nil => exact Memory.get_cons a v [] b rfl
  | cons c rest ih =>
    obtain ⟨k, w⟩ := c
    have h' := h
    simp only [Memory.wfFrom, Bool.and_eq_true, decide_eq_true_eq] at h
    unfold Memory.set
    split
    · simp only [Memory.get, ih h.2]
      split_ifs <;> first | rfl | omega
    · split
      · next hk =>
        subst hk
        rw [Memory.get_cons _ _ _ _ (Memory.get_of_wfFrom h.2 (by omega))]
        simp only [Memory.get]
        split_ifs <;> rfl
      · refine Memory.get_cons a v _ b ?_
        have : k ≠ a := by omega
        simpa [Memory.get, this] using Memory.get_of_wfFrom h.2 (by omega)

/-- A write leaves every other address alone, in every memory. -/
theorem Memory.get_set_other (m : Memory) {a b : Nat} (v : Byte) (h : a ≠ b) : (m.set a v).get b = m.get b := by
  have hcons (rest : Memory) : (Memory.cons a v rest).get b = rest.get b := by
    unfold Memory.cons
    split
    · rfl
    · simp [Memory.get, h]
  induction m with
  | nil => exact hcons []
  | cons c rest ih =>
    obtain ⟨k, w⟩ := c
    unfold Memory.set
    split
    · simp [Memory.get, ih]
    · split
      · next hk => simp [hcons, Memory.get, hk, h]
      · exact hcons _

theorem Memory.get_ofBytes (bytes : List Byte) (lo i : Nat) (hl : lo + bytes.length ≤ 256) :
    (Memory.ofBytes lo bytes).get (lo + i) = bytes.getD i Memory.unlisted := by
  induction bytes generalizing lo i with
  | nil => rfl
  | cons v rest ih =>
    simp only [List.length_cons] at hl
    have hwf := Memory.wfFrom_ofBytes rest (lo + 1) (by omega)
    rw [Memory.ofBytes, Memory.get_cons _ _ _ _ (Memory.get_of_wfFrom hwf (by omega))]
    cases i with
    | zero => simp
    | succ i =>
      have hne : ¬ lo = lo + (i + 1) := by omega
      rw [if_neg hne, show lo + (i + 1) = (lo + 1) + i by omega, ih (lo + 1) i (by omega)]
      simp

/-- The loaded image read back (R21). -/
theorem Memory.get_ofImage (image : Vector Byte 256) (a : Fin 256) : (Memory.ofImage image).get a = image[a] := by
  have h := Memory.get_ofBytes image.toList 0 a.val (by simp)
  simp only [Nat.zero_add] at h
  simp [Memory.ofImage, h]

/-- Two canonical memories with the same bytes are the same list. -/
theorem Memory.ext_of_wfFrom {m m' : Memory} {lo : Nat} (h : Memory.wfFrom lo m = true)
    (h' : Memory.wfFrom lo m' = true) (heq : ∀ a, m.get a = m'.get a) : m = m' := by
  induction m generalizing lo m' with
  | nil =>
    cases m' with
    | nil => rfl
    | cons c' rest' =>
      obtain ⟨k', v'⟩ := c'
      simp only [Memory.wfFrom, Bool.and_eq_true] at h'
      have := heq k'
      simp_all [Memory.get]
  | cons c rest ih =>
    obtain ⟨k, v⟩ := c
    simp only [Memory.wfFrom, Bool.and_eq_true, decide_eq_true_eq] at h
    cases m' with
    | nil =>
      have := heq k
      simp_all [Memory.get]
    | cons c' rest' =>
      obtain ⟨k', v'⟩ := c'
      simp only [Memory.wfFrom, Bool.and_eq_true, decide_eq_true_eq] at h'
      have hk : k = k' := by
        rcases Nat.lt_trichotomy k k' with hlt | heqk | hlt
        · have := heq k
          have hne : k' ≠ k := by omega
          simp only [Memory.get, if_true, hne, if_false, Memory.get_of_wfFrom h'.2 (show k < k' + 1 by omega)] at this
          simp_all
        · exact heqk
        · have := heq k'
          have hne : k ≠ k' := by omega
          simp only [Memory.get, if_true, hne, if_false, Memory.get_of_wfFrom h.2 (show k' < k + 1 by omega)] at this
          simp_all
      subst hk
      have hv : v = v' := by simpa [Memory.get] using heq k
      subst hv
      have : rest = rest' := by
        refine ih h.2 h'.2 fun a => ?_
        have ha := heq a
        by_cases hka : k = a
        · subst hka
          rw [Memory.get_of_wfFrom h.2 (by omega), Memory.get_of_wfFrom h'.2 (by omega)]
        · simpa [Memory.get, hka] using ha
      rw [this]

/-- Equal contents make equal memories, for memories in canonical form. -/
theorem Memory.ext_of_wf {m m' : Memory} (h : m.wf = true) (h' : m'.wf = true) (heq : ∀ a, m.get a = m'.get a) :
    m = m' := Memory.ext_of_wfFrom h h' heq

/-- Placing bytes keeps the canonical form. -/
theorem placeBytes_wf (bytes : List Byte) (m : Memory) (a : Nat) (h : m.wf = true) : (placeBytes m a bytes).wf = true := by
  induction bytes generalizing m a with
  | nil => exact h
  | cons v rest ih =>
    unfold placeBytes
    split
    · exact h
    · exact ih _ _ (Memory.wf_set h (by omega))

theorem State.reset_mem_wf : State.reset.mem.wf = true := rfl

theorem Memory.ofBytes_zero (n lo : Nat) : Memory.ofBytes lo (List.replicate n Memory.unlisted) = [] := by
  induction n generalizing lo with
  | zero => rfl
  | succ n ih => rw [List.replicate_succ, Memory.ofBytes, ih, Memory.cons, if_pos rfl]

theorem State.resetWith_mem_wf (g : Vector Byte 7) (f : Byte) (image : Vector Byte 256) :
    (State.resetWith g f image).mem.wf = true := Memory.wf_ofImage image

theorem State.store_mem_wf (s : State) (a v : Byte) (h : s.mem.wf = true) : (s.store a v).mem.wf = true :=
  Memory.wf_set h (by have := a.isLt; omega)

/-- A store leaves every other cell alone. -/
theorem State.store_get_other (s : State) (a v : Byte) {b : Nat} (h : b ≠ a.toNat) :
    (s.store a v).mem.get b = s.mem.get b := Memory.get_set_other s.mem v (Ne.symm h)

/-- MemRead after MemWrite (R59). -/
theorem State.store_get (s : State) (a v : Byte) (h : s.mem.wf = true) (b : Nat) :
    (s.store a v).mem.get b = if a.toNat = b then v else s.mem.get b := Memory.get_set h a.toNat v b

end Sys2Proof.Machine
end

