-- ==== Sys2Proof/Laws/Fetch.lean ====
section
/-! SUPPORT. What the fetch phase can answer, and what a running step is in terms of it. -/

namespace Sys2Proof.Machine

theorem fetchByte_within {s : State} {a : Nat} (h : a ≤ 255) : fetchByte s a = .ok (s.mem.get a) := by
  simp [fetchByte, Nat.not_lt.mpr h]

theorem fetchByte_above {s : State} {a : Nat} (h : 255 < a) : fetchByte s a = .error (.memoryBounds a s.pc) := by
  simp [fetchByte, h]

theorem fetchOperand_within {oob : Bool} {s : State} {n k : Nat} (h : s.pc + k ≤ 255) :
    fetchOperand oob s n k = .ok (s.mem.get (s.pc + k)) := by
  rw [fetchOperand, if_pos (Or.inl h), fetchByte_within h]

theorem fetchOperand_declared {oob : Bool} {s : State} {n k : Nat} (hk : k ≤ n) (h : 255 < s.pc + k) :
    fetchOperand oob s n k = .error (.memoryBounds (s.pc + k) s.pc) := by
  rw [fetchOperand, if_pos (Or.inr (Or.inl hk)), fetchByte_above h]

theorem fetchOperand_undeclared {oob : Bool} {s : State} {n k : Nat} (hk : n < k) (h : 255 < s.pc + k) :
    fetchOperand oob s n k = if oob then .error (.memoryBounds (s.pc + k) s.pc) else .ok 0 := by
  cases oob with
  | true => rw [fetchOperand, if_pos (Or.inr (Or.inr rfl)), fetchByte_above h]; rfl
  | false => rw [fetchOperand, if_neg (by simp; omega)]; rfl

/-- Every error of an operand fetch is a MemoryBoundsFault at that operand's address (R103, R104). -/
theorem fetchOperand_error {oob : Bool} {s : State} {n k : Nat} {c : Cause} (h : fetchOperand oob s n k = .error c) :
    255 < s.pc + k ∧ (k ≤ n ∨ oob = true) ∧ c = .memoryBounds (s.pc + k) s.pc := by
  by_cases hb : s.pc + k ≤ 255
  · rw [fetchOperand_within hb] at h
    cases h
  · by_cases hk : k ≤ n
    · rw [fetchOperand_declared hk (by omega)] at h
      cases h
      exact ⟨by omega, .inl hk, rfl⟩
    · rw [fetchOperand_undeclared (by omega) (by omega)] at h
      cases oob with
      | true =>
        cases h
        exact ⟨by omega, .inr rfl, rfl⟩
      | false => cases h

theorem fetch_above {oob : Bool} {s : State} (h : 255 < s.pc) : fetch oob s = .error (.memoryBounds s.pc s.pc) := by
  simp [fetch, fetchByte_above h, bind, Except.bind]

theorem fetch_invalid {oob : Bool} {s : State} (h : s.pc ≤ 255) (hd : dispatch (s.mem.get s.pc) = none) :
    fetch oob s = .error (.invalidOpcode (s.mem.get s.pc) s.pc) := by
  simp [fetch, fetchByte_within h, hd, bind, Except.bind, throw, throwThe, MonadExceptOf.throw]

/-- The fetch of a valid opcode is its two operand fetches, in order. -/
theorem fetch_valid {oob : Bool} {s : State} {k : Byte → Byte → Instr} (h : s.pc ≤ 255)
    (hd : dispatch (s.mem.get s.pc) = some k) :
    fetch oob s =
      match fetchOperand oob s (numOperands (s.mem.get s.pc)) 1 with
      | .error c => .error c
      | .ok a =>
        match fetchOperand oob s (numOperands (s.mem.get s.pc)) 2 with
        | .error c => .error c
        | .ok b => .ok (k a b) := by
  simp only [fetch, fetchByte_within h, hd, bind, Except.bind, pure, Except.pure]
  cases fetchOperand oob s (numOperands (s.mem.get s.pc)) 1 with
  | error c => rfl
  | ok a => cases fetchOperand oob s (numOperands (s.mem.get s.pc)) 2 <;> rfl

/-- Up to address 253 a fetch of a valid opcode never faults, and PREFETCH_OOB_FAULT does not matter (R304). -/
theorem fetch_below {oob : Bool} {s : State} {k : Byte → Byte → Instr} (h : s.pc ≤ 253)
    (hd : dispatch (s.mem.get s.pc) = some k) :
    fetch oob s = .ok (k (s.mem.get (s.pc + 1)) (s.mem.get (s.pc + 2))) := by
  rw [fetch_valid (by omega) hd, fetchOperand_within (by omega), fetchOperand_within (by omega)]

/-- A fetch that reaches no byte it must fault on gives the kind of the opcode byte with the bytes that follow it; an
undeclared one, wherever it lies, does not matter (R76, R104). -/
theorem fetch_within {oob : Bool} {s : State} {k : Byte → Byte → Instr} (hd : dispatch (s.mem.get s.pc) = some k)
    (hn : s.pc + numOperands (s.mem.get s.pc) ≤ 255) (ho : oob = true → s.pc + 2 ≤ 255) :
    fetch oob s = .ok (k (s.mem.get (s.pc + 1)) (s.mem.get (s.pc + 2))) := by
  have operand (j : Nat) (hj : j ≤ 2) : ∃ v, fetchOperand oob s (numOperands (s.mem.get s.pc)) j = .ok v ∧
      (j ≤ numOperands (s.mem.get s.pc) → v = s.mem.get (s.pc + j)) := by
    by_cases hb : s.pc + j ≤ 255
    · exact ⟨_, fetchOperand_within hb, fun _ => rfl⟩
    · have hoob : oob = false := by
        cases oob with
        | false => rfl
        | true =>
          have := ho rfl
          omega
      refine ⟨0, ?_, fun h => by omega⟩
      rw [fetchOperand_undeclared (by omega) (by omega), hoob]
      rfl
  obtain ⟨a, ha, hav⟩ := operand 1 (by omega)
  obtain ⟨b, hb, hbv⟩ := operand 2 (by omega)
  rw [fetch_valid (by omega) hd, ha, hb]
  exact congrArg Except.ok (kind_ignores_undeclared hd hav hbv)

/-- A fetch of a valid opcode that must fault on an operand byte faults at 256, the first address past memory (R103,
R104). -/
theorem fetch_past {oob : Bool} {s : State} {k : Byte → Byte → Instr} (h : s.pc ≤ 255)
    (hd : dispatch (s.mem.get s.pc) = some k)
    (hp : 255 < s.pc + numOperands (s.mem.get s.pc) ∨ (oob = true ∧ 255 < s.pc + 2)) :
    fetch oob s = .error (.memoryBounds 256 s.pc) := by
  have hn := numOperands_le_two hd
  have fault (j : Nat) (hj : s.pc + j = 256) (hjn : j ≤ numOperands (s.mem.get s.pc) ∨ oob = true) :
      fetchOperand oob s (numOperands (s.mem.get s.pc)) j = .error (.memoryBounds 256 s.pc) := by
    cases hf : fetchOperand oob s (numOperands (s.mem.get s.pc)) j with
    | error c => rw [(fetchOperand_error hf).2.2, hj]
    | ok v =>
      rcases hjn with hjn | hjn
      · rw [fetchOperand_declared hjn (by omega)] at hf
        cases hf
      · by_cases hle : j ≤ numOperands (s.mem.get s.pc)
        · rw [fetchOperand_declared hle (by omega)] at hf
          cases hf
        · rw [fetchOperand_undeclared (by omega) (by omega), hjn] at hf
          cases hf
  rw [fetch_valid h hd]
  by_cases h255 : s.pc = 255
  · rw [fault 1 (by omega) (hp.imp (fun h => by omega) And.left)]
  · have h254 : s.pc = 254 := by omega
    rw [fetchOperand_within (by omega), fault 2 (by omega) (hp.imp (fun h => by omega) And.left)]

/-- Everything the fetch phase can give (R101 to R104). -/
theorem fetch_ok {oob : Bool} {s : State} {i : Instr} (h : fetch oob s = .ok i) :
    ∃ k, dispatch (s.mem.get s.pc) = some k ∧ i = k (s.mem.get (s.pc + 1)) (s.mem.get (s.pc + 2)) ∧
      s.pc ≤ 255 ∧ s.pc + numOperands (s.mem.get s.pc) ≤ 255 ∧ (oob = true → s.pc + 2 ≤ 255) := by
  by_cases hpc : s.pc ≤ 255
  · cases hd : dispatch (s.mem.get s.pc) with
    | none =>
      rw [fetch_invalid hpc hd] at h
      cases h
    | some k =>
      by_cases hp : 255 < s.pc + numOperands (s.mem.get s.pc) ∨ (oob = true ∧ 255 < s.pc + 2)
      · rw [fetch_past hpc hd hp] at h
        cases h
      · have hn : s.pc + numOperands (s.mem.get s.pc) ≤ 255 := by omega
        have ho : oob = true → s.pc + 2 ≤ 255 := fun ho => Nat.not_lt.mp fun hc => hp (.inr ⟨ho, hc⟩)
        rw [fetch_within hd hn ho] at h
        cases h
        exact ⟨k, rfl, rfl, hpc, hn, ho⟩
  · rw [fetch_above (by omega)] at h
    cases h

/-- The opcode byte of what is fetched is the byte at PC (R101, R102). -/
theorem opcode_fetch {oob : Bool} {s : State} {i : Instr} (h : fetch oob s = .ok i) : opcode i = s.mem.get s.pc := by
  obtain ⟨k, hd, rfl, -⟩ := fetch_ok h
  exact dispatch_sound hd _ _

/-- Every fault of the fetch phase (R101 to R104). -/
theorem fetch_error {oob : Bool} {s : State} {c : Cause} (h : fetch oob s = .error c) :
    (255 < s.pc ∧ c = .memoryBounds s.pc s.pc) ∨
    (s.pc ≤ 255 ∧ dispatch (s.mem.get s.pc) = none ∧ c = .invalidOpcode (s.mem.get s.pc) s.pc) ∨
    (s.pc ≤ 255 ∧ dispatch (s.mem.get s.pc) ≠ none ∧
      (255 < s.pc + numOperands (s.mem.get s.pc) ∨ (oob = true ∧ 255 < s.pc + 2)) ∧ c = .memoryBounds 256 s.pc) := by
  by_cases hpc : s.pc ≤ 255
  · cases hd : dispatch (s.mem.get s.pc) with
    | none =>
      rw [fetch_invalid hpc hd] at h
      cases h
      exact .inr (.inl ⟨hpc, rfl, rfl⟩)
    | some k =>
      by_cases hp : 255 < s.pc + numOperands (s.mem.get s.pc) ∨ (oob = true ∧ 255 < s.pc + 2)
      · rw [fetch_past hpc hd hp] at h
        cases h
        exact .inr (.inr ⟨hpc, by simp, hp, rfl⟩)
      · rw [fetch_within hd (by omega) fun ho => Nat.not_lt.mp fun hc => hp (.inr ⟨ho, hc⟩)] at h
        cases h
  · rw [fetch_above (by omega)] at h
    cases h
    exact .inl ⟨by omega, rfl⟩

/-- A step from Running is the fault of its fetch phase, or the instruction it fetched (R109). -/
theorem stepWith_running {oob : Bool} {s : State} (h : s.status = .running) :
    stepWith oob s = match fetch oob s with
      | .error c => .next (s.raise c)
      | .ok i => exec i s := by
  cases hf : fetch oob s <;> simp [stepWith, h, hf]

theorem step_fetch_error {s : State} {c : Cause} (h : s.status = .running)
    (hf : fetch Config.prefetchOobFault s = .error c) : step s = .next (s.raise c) := by
  rw [step, stepWith_running h, hf]

theorem step_fetch_ok {s : State} {i : Instr} (h : s.status = .running)
    (hf : fetch Config.prefetchOobFault s = .ok i) : step s = exec i s := by
  rw [step, stepWith_running h, hf]

/-- Everything a step that answers a next state did: it ran from Running, and it entered a fault of the fetch phase, or
a fault of the instruction, or it retired the instruction. -/
theorem step_next_cases {s t : State} (h : step s = .next t) :
    s.status = .running ∧
      ((∃ c, fetch Config.prefetchOobFault s = .error c ∧ t = s.raise c) ∨
       (∃ i, fetch Config.prefetchOobFault s = .ok i ∧
         ((∃ c, handle i s = .error c ∧ t = s.raise c) ∨ (∃ u, handle i s = .ok u ∧ t = u.retire i)))) := by
  cases hs : s.status with
  | halted => simp [step, stepWith, hs] at h
  | faulted c => simp [step, stepWith, hs] at h
  | running =>
    refine ⟨rfl, ?_⟩
    cases hf : fetch Config.prefetchOobFault s with
    | error c =>
      rw [step_fetch_error hs hf] at h
      exact .inl ⟨c, rfl, by cases h; rfl⟩
    | ok i =>
      rw [step_fetch_ok hs hf] at h
      exact .inr ⟨i, rfl, exec_next_cases h⟩

end Sys2Proof.Machine
end

