-- ==== Sys2Proof/Laws/Run.lean ====
section
/-! SUPPORT. Runs: their two equations, how they compose, and the induction that carries an invariant along one. -/

namespace Sys2Proof.Machine

@[simp] theorem run_zero (s : State) : run 0 s = .next s := rfl

theorem run_succ_next {k : Nat} {s t : State} (h : step s = .next t) : run (k + 1) s = run k t := by
  have hc : core.step s = .next t := h
  simp only [run, Host.Core.run, hc]
  rfl

theorem run_succ_fault {k : Nat} {s : State} {r : Fault} (h : step s = .fault r) : run (k + 1) s = .fault r := by
  have hc : core.step s = .fault r := h
  simp only [run, Host.Core.run, hc]
  rfl

theorem run_succ_refused {k : Nat} {s : State} {r : Refusal} (h : step s = .refused r) :
    run (k + 1) s = .refused r := by
  have hc : core.step s = .refused r := h
  simp only [run, Host.Core.run, hc]
  rfl

/-- A run of k + 1 steps that answers a state began with a step. -/
theorem run_succ_cases {k : Nat} {s t : State} (h : run (k + 1) s = .next t) : ∃ u, step s = .next u ∧ run k u = .next t := by
  cases hs : step s with
  | next u => exact ⟨u, rfl, (run_succ_next hs).symm.trans h⟩
  | fault r =>
    rw [run_succ_fault hs] at h
    cases h
  | refused r =>
    rw [run_succ_refused hs] at h
    cases h

/-- A run continues from the state it has reached. -/
theorem run_add {j k : Nat} {s t : State} (h : run j s = .next t) : run (j + k) s = run k t := by
  induction j generalizing s with
  | zero =>
    cases h
    rw [Nat.zero_add]
  | succ j ih =>
    obtain ⟨u, hu, hr⟩ := run_succ_cases h
    rw [show j + 1 + k = (j + k) + 1 by omega, run_succ_next hu]
    exact ih hr

/-- A sequence of instructions is run part by part. -/
theorem execAll_append {is js : List Instr} {s t : State} (h : execAll is s = .next t) :
    execAll (is ++ js) s = execAll js t := by
  induction is generalizing s with
  | nil =>
    cases h
    rfl
  | cons i is ih =>
    cases hi : exec i s with
    | next u =>
      simp only [execAll, hi] at h
      simpa only [List.cons_append, execAll, hi] using ih h
    | fault r => simp [execAll, hi] at h
    | refused r => simp [execAll, hi] at h

theorem execAll_cons {i : Instr} {is : List Instr} {s t : State} (h : exec i s = .next t) :
    execAll (i :: is) s = execAll is t := by
  simp only [execAll, h]

/-- What holds of a state and is kept by every step holds all along a run. -/
theorem run_invariant {P : State → Prop} (hstep : ∀ s t, P s → step s = .next t → P t) {k : Nat} {s t : State}
    (hs : P s) (h : run k s = .next t) : P t := by
  induction k generalizing s with
  | zero =>
    cases h
    exact hs
  | succ k ih =>
    obtain ⟨u, hu, hr⟩ := run_succ_cases h
    exact ih (hstep s u hs hu) hr

end Sys2Proof.Machine
end

