-- ==== Sys2Proof/Tests/Slice0.lean ====
section
/-! SUPPORT. The model's own tests. Expected results come from spec/: the encodings of 30_encoding.md, the worked
examples of the instruction rules, and the vectors of 95_test_vectors.md, each named in its comment. The theorems named
`witness_…` show, for each statement with hypotheses, a concrete state and operands that meet them, at the edges of
their ranges. -/

namespace Sys2Proof.Tests

open Sys2Proof.Machine

/-- A state with PC at `p`, the given bytes from there on, and the registers R0, R1, R2 and SP. -/
def stateAt (p : Nat) (bytes : List Byte) (r0 r1 r2 sp : Byte) : State :=
  { State.reset with mem := placeBytes [] p bytes, pc := p, regs := #v[r0, r1, r2, 0, 0, 0, 0, sp] }

/-- The state a step answers, if it answers one. -/
def after (o : Answer) : Option State :=
  match o with
  | .next s => some s
  | .fault _ => none
  | .refused _ => none

/-- What a field of the state after one step with PREFETCH_OOB_FAULT = false (the reference configuration of R13) holds. -/
def look {α : Type} (f : State → α) (s : State) : Option α := (after (stepWith false s)).map f

/-- The instruction decoded from bytes, with the bytes left over. -/
def read (bytes : List Byte) : Option (Instr × List Byte) :=
  match decode bytes with
  | .ok r => some r
  | .error _ => none

/-- A register of a state, by number. -/
def x (i : Fin 8) (s : State) : Byte := s.reg i

/-! ### WellFormed: each check refuses an ill-formed term (R75, R90) -/

theorem test_wellFormed_refuses_first_operand_8 : (Instr.prn 8).wellFormed = false := by decide
theorem test_wellFormed_refuses_second_operand_255 : (Instr.add 7 255).wellFormed = false := by decide
theorem test_wellFormed_refuses_ldi_register_9 : (Instr.ldi 9 0).wellFormed = false := by decide
theorem test_wellFormed_accepts_any_immediate : (Instr.ldi 7 255).wellFormed = true := by decide

/-! ### Decode: every constructor from a word written out bit by bit (R71, R74, R78) -/

theorem test_decode_hlt : read [0b00000001, 0b11001100] = some (.hlt, [0b11001100]) := by decide
theorem test_decode_ldi : read [0b10000010, 0b00000000, 0b00001000, 0b11001100] = some (.ldi 0 8, [0b11001100]) := by decide
theorem test_decode_prn : read [0b01000111, 0b00000000, 0b11001100] = some (.prn 0, [0b11001100]) := by decide
theorem test_decode_push : read [0b01000101, 0b00000111, 0b11001100] = some (.push 7, [0b11001100]) := by decide
theorem test_decode_pop : read [0b01000110, 0b00000010, 0b11001100] = some (.pop 2, [0b11001100]) := by decide
theorem test_decode_call : read [0b01010000, 0b00000001, 0b11001100] = some (.call 1, [0b11001100]) := by decide
theorem test_decode_ret : read [0b00010001, 0b11001100] = some (.ret, [0b11001100]) := by decide
theorem test_decode_cmp : read [0b10100111, 0b00000000, 0b00000001, 0b11001100] = some (.cmp 0 1, [0b11001100]) := by decide
theorem test_decode_jmp : read [0b01010100, 0b00000011, 0b11001100] = some (.jmp 3, [0b11001100]) := by decide
theorem test_decode_jeq : read [0b01010101, 0b00000101, 0b11001100] = some (.jeq 5, [0b11001100]) := by decide
theorem test_decode_jne : read [0b01010110, 0b11111111, 0b11001100] = some (.jne 255, [0b11001100]) := by decide
theorem test_decode_add : read [0b10100000, 0b00000100, 0b00000001, 0b11001100] = some (.add 4 1, [0b11001100]) := by decide
theorem test_decode_mul : read [0b10100010, 0b00000110, 0b00000001, 0b11001100] = some (.mul 6 1, [0b11001100]) := by decide
theorem test_decode_and : read [0b10101000, 0b00000000, 0b10000001, 0b11001100] = some (.and 0 129, [0b11001100]) := by decide
theorem test_decode_or : read [0b10101010, 0b00000000, 0b00000001, 0b11001100] = some (.or 0 1, [0b11001100]) := by decide
theorem test_decode_xor : read [0b10101011, 0b00000010, 0b00000001, 0b11001100] = some (.xor 2 1, [0b11001100]) := by decide
theorem test_decode_not : read [0b01101001, 0b00000001, 0b11001100] = some (.not 1, [0b11001100]) := by decide
theorem test_decode_shl : read [0b10101100, 0b00000001, 0b00000010, 0b11001100] = some (.shl 1 2, [0b11001100]) := by decide
theorem test_decode_shr : read [0b10101101, 0b00000000, 0b00000001, 0b11001100] = some (.shr 0 1, [0b11001100]) := by decide

/-- LS-8 opcodes that this hardware does not have, and 0x00, are invalid (R83). -/
theorem test_decode_refuses_absent_opcodes :
    ∀ op ∈ ([0x00, 0xA1, 0xA3, 0xA4, 0x65, 0x66, 0x83, 0x84, 0x48, 0x52, 0x13, 0x57, 0x58, 0x59, 0x5A, 0xC2] : List Byte),
      read [op, 0, 1] = none := by decide

/-- A declared operand byte must be there (R70). -/
theorem test_decode_refuses_missing_operand : read [0x82, 0x00] = none := by decide

/-- The first step after reset runs every table word, with operand bytes of zero (R101). -/
theorem test_withFetchWord_runs_after_reset :
    ∀ e ∈ ([(8, 0x01), (24, 0x82), (16, 0x47), (16, 0x45), (16, 0x46), (16, 0x50), (8, 0x11), (24, 0xA7), (16, 0x54),
        (16, 0x55), (16, 0x56), (24, 0xA0), (24, 0xA2), (24, 0xA8), (24, 0xAA), (24, 0xAB), (16, 0x69), (24, 0xAC),
        (24, 0xAD)] : List (Nat × Nat)),
      (after (step (State.reset.withFetchWord e.1 e.2))).map
        (fun t => match t.status with | .faulted _ => false | _ => true) = some true := by decide

/-! ### One step of each instruction -/

/-- V-S1. -/
theorem test_hlt_halts :
    look (fun t => (t.status, t.pc)) (stateAt 5 [0x01] 0 0 0 0xF4) = some (.halted, 6) := by decide

/-- V-E7. -/
theorem test_hlt_at_255 :
    look (fun t => (t.status, t.pc)) (stateAt 255 [0x01] 0 0 0 0xF4) = some (.halted, 256) := by decide

/-- V-S3. -/
theorem test_ldi_moves_sp :
    look (fun t => (x 7 t, t.pc)) (stateAt 0 [0x82, 0x07, 0x10] 0 0 0 0xF4) = some (0x10, 3) := by decide

/-- V-S4. -/
theorem test_ldi_register_8 :
    look (fun t => t.status) (stateAt 9 [0x82, 0x08, 0x01] 0 0 0 0xF4) = some (.faulted (.registerIndex 8 9)) := by decide

/-- V-E9. -/
theorem test_prn_at_254 :
    look (fun t => (t.out, t.pc)) (stateAt 254 [0x47, 0x00] 7 0 0 0xF4) = some ([7], 256) := by decide

/-- V-S7. -/
theorem test_prn_register_255 :
    look (fun t => (t.status, t.out)) (stateAt 0 [0x47, 0xFF] 0 0 0 0xF4) = some (.faulted (.registerIndex 255 0), []) := by decide

/-- V-K2. -/
theorem test_push_r7_stores_new_sp :
    look (fun t => (x 7 t, t.mem.get 0xF3)) (stateAt 0 [0x45, 0x07] 0 0 0 0xF4) = some (0xF3, 0xF3) := by decide

/-- V-K4. -/
theorem test_push_to_address_0 :
    look (fun t => (x 7 t, t.mem.get 0)) (stateAt 9 [0x45, 0x00] 0xAB 0 0 1) = some (0, 0xAB) := by decide

/-- V-K6. -/
theorem test_pop_r7 :
    look (x 7) (stateAt 0xF2 [0x46, 0x07, 0x20] 0 0 0 0xF4) = some 0x21 := by decide

/-- V-K7. -/
theorem test_pop_r7_at_255 :
    look (fun t => (t.status, x 7 t)) (stateAt 0xF2 [0x46, 0x07, 0xFF] 0 0 0 0xF4) =
      some (.faulted (.stackBounds 0xF4 0xF2), 0xF4) := by decide

/-- V-C1. -/
theorem test_call_pushes_8 :
    look (fun t => (x 7 t, t.mem.get 0xF3, t.pc)) (stateAt 6 [0x50, 0x01] 0 11 0 0xF4) = some (0xF3, 8, 11) := by decide

/-- V-C2. -/
theorem test_call_at_254 :
    look (fun t => (t.status, x 7 t)) (stateAt 254 [0x50, 0x01] 0 11 0 0xF4) = some (.faulted (.returnAddress 254), 0xF4) := by decide

/-- V-C10. -/
theorem test_ret_pops_8 :
    look (fun t => (t.pc, x 7 t)) (stateAt 0xF2 [0x11, 0x08] 0 0 0 0xF3) = some (8, 0xF4) := by decide

/-- V-C11. -/
theorem test_ret_at_top :
    look (fun t => t.status) (stateAt 0 [0x11] 0 0 0 0xFF) = some (.faulted (.stackBounds 0xFF 0)) := by decide

/-- R180. -/
theorem test_jmp_to_12 :
    look (fun t => t.pc) (stateAt 40 [0x54, 0x02] 0 0 12 0xF4) = some 12 := by decide

/-- V-C4. -/
theorem test_jeq_taken :
    look (fun t => t.pc) { stateAt 10 [0x55, 0x02] 0 0 29 0xF4 with fl := 0x01 } = some 29 := by decide

/-- V-C8. -/
theorem test_jeq_not_taken_register_9 :
    look (fun t => (t.pc, t.status)) (stateAt 10 [0x55, 0x09] 0 0 0 0xF4) = some (12, .running) := by decide

/-- V-C14. -/
theorem test_jne_reads_bit_0_only :
    look (fun t => t.pc) { stateAt 10 [0x56, 0x02] 0 0 29 0xF4 with fl := 0xFE } = some 29 := by decide

/-- V-C7. -/
theorem test_jne_not_taken :
    look (fun t => t.pc) { stateAt 10 [0x56, 0x02] 0 0 29 0xF4 with fl := 0x01 } = some 12 := by decide

/-- V-F3. -/
theorem test_cmp_unsigned :
    look (fun t => (t.fl, t.pc)) (stateAt 0 [0xA7, 0x00, 0x01] 0x80 0x7F 0 0xF4) = some (0x02, 3) := by decide

/-- V-F5. -/
theorem test_cmp_overwrites :
    look (fun t => t.fl) { stateAt 0 [0xA7, 0x00, 0x01] 1 2 0 0xF4 with fl := 0x07 } = some 0x04 := by decide

/-- V-A1. -/
theorem test_add_wraps :
    look (x 0) (stateAt 0 [0xA0, 0x00, 0x01] 200 100 0 0xF4) = some 44 := by decide

/-- V-A6. -/
theorem test_mul_low_byte :
    look (x 0) (stateAt 0 [0xA2, 0x00, 0x01] 255 255 0 0xF4) = some 1 := by decide

/-- V-A8. -/
theorem test_and_bits :
    look (x 0) (stateAt 0 [0xA8, 0x00, 0x01] 240 60 0 0xF4) = some 48 := by decide

/-- V-A9. -/
theorem test_or_bits :
    look (x 0) (stateAt 0 [0xAA, 0x00, 0x01] 240 60 0 0xF4) = some 252 := by decide

/-- V-A10. -/
theorem test_xor_bits :
    look (x 0) (stateAt 0 [0xAB, 0x00, 0x01] 240 60 0 0xF4) = some 204 := by decide

/-- V-A22. -/
theorem test_shr_logical :
    look (x 0) (stateAt 0 [0xAD, 0x00, 0x01] 255 1 0 0xF4) = some 127 := by decide

/-- V-A21. -/
theorem test_shr_by_8 :
    look (x 0) (stateAt 0 [0xAD, 0x00, 0x01] 128 8 0 0xF4) = some 0 := by decide

/-- V-A23. -/
theorem test_shl_by_itself :
    look (x 2) (stateAt 0 [0xAC, 0x02, 0x02] 0 0 2 0xF4) = some 8 := by decide

/-- V-A18. -/
theorem test_shl_by_255 :
    look (x 1) (stateAt 0 [0xAC, 0x01, 0x02] 0 0xFF 255 0xF4) = some 0 := by decide

/-- V-A14. -/
theorem test_not_ignores_byte_2 :
    look (fun t => (x 1 t, t.pc)) (stateAt 0 [0x69, 0x01, 0xFF] 0 0xFF 0 0xF4) = some (0, 2) := by decide

/-- V-A25. -/
theorem test_add_second_index_9 :
    look (fun t => (t.status, x 0 t)) (stateAt 0 [0xA0, 0x00, 0x09] 5 0 0 0xF4) = some (.faulted (.registerIndex 9 0), 5) := by decide

/-! ### The engine -/

/-- V-E1. -/
theorem test_zero_is_invalid :
    look (fun t => (t.status, t.pc)) State.reset = some (.faulted (.invalidOpcode 0x00 0), 0) := by decide

/-- V-E4. -/
theorem test_fetch_at_256 :
    look (fun t => t.status) (stateAt 256 [] 0 0 0 0xF4) = some (.faulted (.memoryBounds 256 256)) := by decide

/-- V-E5. -/
theorem test_ldi_at_254 :
    look (fun t => t.status) (stateAt 254 [0x82, 0x00] 0 0 0 0xF4) = some (.faulted (.memoryBounds 256 254)) := by decide

/-- V-E8. -/
theorem test_hlt_at_255_with_prefetch_fault :
    (after (stepWith true (stateAt 255 [0x01] 0 0 0 0xF4))).map (fun t => t.status) = some (.faulted (.memoryBounds 256 255)) := by decide

/-- V-E10. -/
theorem test_no_step_when_halted :
    after (step { State.reset with status := .halted }) = none := by decide

/-- R21, R20: writing what an unlisted address reads as removes the entry. -/
theorem test_memory_is_canonical :
    Memory.set (Memory.set (Memory.set [] 5 1) 3 2) 5 0 = [(3, 2)] := by decide

/-! ### Witnesses: states and operands that meet the hypotheses of the statements -/

/-- A byte of 8 is the smallest register operand that names no register, 255 the largest. -/
theorem witness_register_index : 7 < (8 : Byte).toNat ∧ 7 < (255 : Byte).toNat := by decide

theorem atOpcode (p : Nat) (op : Byte) (bytes : List Byte) (r0 r1 r2 sp : Byte) (hp : p ≤ 255)
    (h : (stateAt p (op :: bytes) r0 r1 r2 sp).mem.get p = op) : AtOpcode op (stateAt p (op :: bytes) r0 r1 r2 sp) :=
  ⟨rfl, hp, h⟩

theorem witness_EncodeInvertsDecode : read [0x82, 0x00, 0x08, 0x47] = some (.ldi 0 8, [0x47]) := by decide

theorem witness_InvalidOpcodeFaultsFirst :
    (0x00 : Byte) ∉ validOpcodes ∧ (0xC2 : Byte) ∉ validOpcodes ∧ AtOpcode 0x00 State.reset ∧
      AtOpcode 0xC2 (stateAt 255 [0xC2] 0 0 0 0xF4) :=
  ⟨by decide, by decide, ⟨rfl, by decide, rfl⟩, atOpcode _ _ _ _ _ _ _ (by decide) (by decide)⟩

theorem witness_HltHaltsAfterAdvancingPc :
    (AtOpcode 0x01 (stateAt 254 [0x01] 0 0 0 0xF4) ∧ AtOpcode 0x01 (stateAt 255 [0x01] 0 0 0 0xF4)) ∧
      (stateAt 256 [] 0 0 0 0xF4).status = .running ∧ 255 < (stateAt 256 [] 0 0 0 0xF4).pc :=
  ⟨⟨atOpcode _ _ _ _ _ _ _ (by decide) (by decide), atOpcode _ _ _ _ _ _ _ (by decide) (by decide)⟩, by decide⟩

theorem witness_LdiLoadsImmediate :
    7 < (8 : Byte).toNat ∧ AtOpcode 0x82 (stateAt 254 [0x82] 0 0 0 0xF4) ∧ 255 < (stateAt 254 [0x82] 0 0 0 0xF4).pc + 2 :=
  ⟨by decide, atOpcode _ _ _ _ _ _ _ (by decide) (by decide), by decide⟩

theorem witness_PrnAppendsRegisterToOutput :
    7 < (8 : Byte).toNat ∧ AtOpcode 0x47 (stateAt 255 [0x47] 0 0 0 0xF4) ∧ 255 < (stateAt 255 [0x47] 0 0 0 0xF4).pc + 1 :=
  ⟨by decide, atOpcode _ _ _ _ _ _ _ (by decide) (by decide), by decide⟩

theorem witness_JmpSetsPcToRegister :
    7 < (8 : Byte).toNat ∧ AtOpcode 0x54 (stateAt 255 [0x54] 0 0 0 0xF4) ∧ 255 < (stateAt 255 [0x54] 0 0 0 0xF4).pc + 1 :=
  ⟨by decide, atOpcode _ _ _ _ _ _ _ (by decide) (by decide), by decide⟩

theorem witness_AddWritesSumModulo256 :
    7 < (8 : Byte).toNat ∧ AtOpcode 0xA0 (stateAt 254 [0xA0] 0 0 0 0xF4) ∧ 255 < (stateAt 254 [0xA0] 0 0 0 0xF4).pc + 2 :=
  ⟨by decide, atOpcode _ _ _ _ _ _ _ (by decide) (by decide), by decide⟩

theorem witness_MulWritesLowByteOfProduct :
    7 < (8 : Byte).toNat ∧ AtOpcode 0xA2 (stateAt 254 [0xA2] 0 0 0 0xF4) ∧ 255 < (stateAt 254 [0xA2] 0 0 0 0xF4).pc + 2 :=
  ⟨by decide, atOpcode _ _ _ _ _ _ _ (by decide) (by decide), by decide⟩

theorem witness_AndWritesBitwiseAnd :
    7 < (8 : Byte).toNat ∧ AtOpcode 0xA8 (stateAt 254 [0xA8] 0 0 0 0xF4) ∧ 255 < (stateAt 254 [0xA8] 0 0 0 0xF4).pc + 2 :=
  ⟨by decide, atOpcode _ _ _ _ _ _ _ (by decide) (by decide), by decide⟩

theorem witness_OrWritesBitwiseOr :
    7 < (8 : Byte).toNat ∧ AtOpcode 0xAA (stateAt 254 [0xAA] 0 0 0 0xF4) ∧ 255 < (stateAt 254 [0xAA] 0 0 0 0xF4).pc + 2 :=
  ⟨by decide, atOpcode _ _ _ _ _ _ _ (by decide) (by decide), by decide⟩

theorem witness_XorWritesBitwiseXor :
    7 < (8 : Byte).toNat ∧ AtOpcode 0xAB (stateAt 254 [0xAB] 0 0 0 0xF4) ∧ 255 < (stateAt 254 [0xAB] 0 0 0 0xF4).pc + 2 :=
  ⟨by decide, atOpcode _ _ _ _ _ _ _ (by decide) (by decide), by decide⟩

theorem witness_NotWritesComplement :
    7 < (8 : Byte).toNat ∧ AtOpcode 0x69 (stateAt 255 [0x69] 0 0 0 0xF4) ∧ 255 < (stateAt 255 [0x69] 0 0 0 0xF4).pc + 1 :=
  ⟨by decide, atOpcode _ _ _ _ _ _ _ (by decide) (by decide), by decide⟩

theorem witness_ShlShiftsByFullAmount :
    7 < (8 : Byte).toNat ∧ AtOpcode 0xAC (stateAt 254 [0xAC] 0 0 0 0xF4) ∧ 255 < (stateAt 254 [0xAC] 0 0 0 0xF4).pc + 2 :=
  ⟨by decide, atOpcode _ _ _ _ _ _ _ (by decide) (by decide), by decide⟩

theorem witness_ShrShiftsLogicallyByFullAmount :
    7 < (8 : Byte).toNat ∧ AtOpcode 0xAD (stateAt 254 [0xAD] 0 0 0 0xF4) ∧ 255 < (stateAt 254 [0xAD] 0 0 0 0xF4).pc + 2 :=
  ⟨by decide, atOpcode _ _ _ _ _ _ _ (by decide) (by decide), by decide⟩

theorem witness_PushStoresRegisterBelowSp :
    (stateAt 0 [0x45, 0x00] 5 0 0 1).reg 7 ≠ 0 ∧ (stateAt 0 [0x45, 0x00] 5 0 0 0).reg 7 = 0 ∧ 7 < (8 : Byte).toNat ∧
      AtOpcode 0x45 (stateAt 255 [0x45] 0 0 0 0xF4) ∧ 255 < (stateAt 255 [0x45] 0 0 0 0xF4).pc + 1 :=
  ⟨by decide, by decide, by decide, atOpcode _ _ _ _ _ _ _ (by decide) (by decide), by decide⟩

theorem witness_PopLoadsRegisterFromSp :
    ((6 : Fin 8) ≠ 7 ∧ (stateAt 0 [0x46, 0x06] 0 0 0 254).reg 7 ≠ 255 ∧ (stateAt 0 [0x46, 0x06] 0 0 0 255).reg 7 = 255) ∧
      (stateAt 0 [254] 0 0 0 0).mem.get ((stateAt 0 [254] 0 0 0 0).reg 7).toNat ≠ 255 ∧
      (stateAt 0 [255] 0 0 0 0).mem.get ((stateAt 0 [255] 0 0 0 0).reg 7).toNat = 255 ∧ 7 < (8 : Byte).toNat ∧
      AtOpcode 0x46 (stateAt 255 [0x46] 0 0 0 0xF4) ∧ 255 < (stateAt 255 [0x46] 0 0 0 0xF4).pc + 1 :=
  ⟨by decide, by decide, by decide, by decide, atOpcode _ _ _ _ _ _ _ (by decide) (by decide), by decide⟩

theorem witness_CallPushesReturnAddressAndJumps :
    ((stateAt 253 [0x50] 0 0 0 1).reg 7 ≠ 0 ∧ (stateAt 253 [0x50] 0 0 0 1).pc + 2 ≤ 255) ∧
      (stateAt 253 [0x50] 0 0 0 0).reg 7 = 0 ∧
      ((stateAt 254 [0x50] 0 0 0 1).reg 7 ≠ 0 ∧ 255 < (stateAt 254 [0x50] 0 0 0 1).pc + 2) ∧ 7 < (8 : Byte).toNat ∧
      AtOpcode 0x50 (stateAt 255 [0x50] 0 0 0 0xF4) ∧ 255 < (stateAt 255 [0x50] 0 0 0 0xF4).pc + 1 :=
  ⟨by decide, by decide, by decide, by decide, atOpcode _ _ _ _ _ _ _ (by decide) (by decide), by decide⟩

theorem witness_RetPopsPc :
    (stateAt 0 [0x11] 0 0 0 254).reg 7 ≠ 255 ∧ (stateAt 0 [0x11] 0 0 0 255).reg 7 = 255 ∧
      AtOpcode 0x11 (stateAt 254 [0x11] 0 0 0 0xF4) ∧ AtOpcode 0x11 (stateAt 255 [0x11] 0 0 0 0xF4) :=
  ⟨by decide, by decide, atOpcode _ _ _ _ _ _ _ (by decide) (by decide), atOpcode _ _ _ _ _ _ _ (by decide) (by decide)⟩

theorem witness_JeqJumpsWhenEqual :
    (0x01 : Byte).getLsbD 0 = true ∧ (0x02 : Byte).getLsbD 0 = false ∧ 7 < (8 : Byte).toNat ∧
      AtOpcode 0x55 (stateAt 255 [0x55] 0 0 0 0xF4) ∧ 255 < (stateAt 255 [0x55] 0 0 0 0xF4).pc + 1 :=
  ⟨by decide, by decide, by decide, atOpcode _ _ _ _ _ _ _ (by decide) (by decide), by decide⟩

theorem witness_JneJumpsWhenNotEqual :
    (0xFE : Byte).getLsbD 0 = false ∧ (0x01 : Byte).getLsbD 0 = true ∧ 7 < (8 : Byte).toNat ∧
      AtOpcode 0x56 (stateAt 255 [0x56] 0 0 0 0xF4) ∧ 255 < (stateAt 255 [0x56] 0 0 0 0xF4).pc + 1 :=
  ⟨by decide, by decide, by decide, atOpcode _ _ _ _ _ _ _ (by decide) (by decide), by decide⟩

theorem witness_CmpOverwritesFlags :
    (let s := stateAt 0 [0xA7] 0 255 0 0xF4
     s.reg 0 = s.reg 2 ∧ (s.reg 0).toNat < (s.reg 1).toNat ∧ (s.reg 1).toNat > (s.reg 0).toNat) ∧ 7 < (8 : Byte).toNat ∧
      AtOpcode 0xA7 (stateAt 254 [0xA7] 0 0 0 0xF4) ∧ 255 < (stateAt 254 [0xA7] 0 0 0 0xF4).pc + 2 :=
  ⟨by decide, by decide, atOpcode _ _ _ _ _ _ _ (by decide) (by decide), by decide⟩

theorem witness_RegisterWritersFrame :
    (∃ t, exec (.ldi 0 9) State.reset = .next t) ∧ (∃ t, exec (.add 1 2) State.reset = .next t) ∧
      (∃ t, exec (.not 7) State.reset = .next t) ∧ (∃ t, exec (.shr 8 0) State.reset = .next t) ∧
      (0 : Byte) ≠ regByte 7 := ⟨⟨_, rfl⟩, ⟨_, rfl⟩, ⟨_, rfl⟩, ⟨_, rfl⟩, by decide⟩

theorem witness_NonWritersFrame :
    (∃ t, exec .hlt State.reset = .next t) ∧ (∃ t, exec (.prn 0) State.reset = .next t) ∧
      (∃ t, exec (.cmp 0 1) State.reset = .next t) ∧ (∃ t, exec (.jmp 8) State.reset = .next t) ∧
      (∃ t, exec (.jeq 8) State.reset = .next t) ∧ (∃ t, exec (.jne 7) State.reset = .next t) :=
  ⟨⟨_, rfl⟩, ⟨_, rfl⟩, ⟨_, rfl⟩, ⟨_, rfl⟩, ⟨_, rfl⟩, ⟨_, rfl⟩⟩

theorem witness_PopAndRetFrame :
    (∃ t, exec (.pop 2) State.reset = .next t) ∧ (∃ t, exec .ret State.reset = .next t) ∧
      (1 : Fin 8) ≠ 7 ∧ (2 : Byte) ≠ regByte 1 := ⟨⟨_, rfl⟩, ⟨_, rfl⟩, by decide, by decide⟩

theorem witness_PushAndCallFrame :
    (∃ t, exec (.push 2) State.reset = .next t) ∧ (∃ t, exec (.call 7) State.reset = .next t) ∧
      (6 : Fin 8) ≠ 7 ∧ 0xF4 ≠ (pushSlot State.reset).toNat := ⟨⟨_, rfl⟩, ⟨_, rfl⟩, by decide, by decide⟩

theorem witness_StepRunsTheDecodedInstruction :
    (stateAt 253 [0x47, 0x00] 0 0 0 0xF4).status = .running ∧ read (bytesAtPc (stateAt 253 [0x47, 0x00] 0 0 0 0xF4)) = some (.prn 0, [0]) ∧
      (stateAt 254 [0x47, 0x00] 0 0 0 0xF4).status = .running ∧ read (bytesAtPc (stateAt 254 [0x47, 0x00] 0 0 0 0xF4)) = some (.prn 0, []) := by
  decide

theorem witness_FetchAboveMemoryFaults :
    (stateAt 255 [0x01] 0 0 0 0xF4).pc ≤ 255 ∧
    ((stateAt 256 [] 0 0 0 0xF4).status = .running ∧ 255 < (stateAt 256 [] 0 0 0 0xF4).pc) ∧
      (stateAt 255 [0x01] 0 0 0 0xF4).status = .running ∧ (stateAt 255 [0x01] 0 0 0 0xF4).pc = 255 ∧
      (stateAt 255 [0x01] 0 0 0 0xF4).mem.get 255 = 0x01 := by decide

theorem witness_UndeclaredOperandAboveMemory :
    (AtOpcode 0x11 (stateAt 255 [0x11] 0 0 0 0xF4) ∧ AtOpcode 0x11 (stateAt 254 [0x11] 0 0 0 0xF4) ∧
      AtOpcode 0x47 (stateAt 254 [0x47, 0] 0 0 0 0xF4)) ∧
    (AtOpcode 0x47 (stateAt 255 [0x47] 0 0 0 0xF4) ∧ AtOpcode 0x82 (stateAt 254 [0x82, 0] 0 0 0 0xF4) ∧
      AtOpcode 0x82 (stateAt 253 [0x82, 0, 0] 0 0 0 0xF4)) ∧
    (numOperands 0x11 = 0 ∧ numOperands 0x47 = 1 ∧ numOperands 0x82 = 2) ∧
    ∀ op ∈ ([0x11, 0x47, 0x82] : List Byte), op ∈ validOpcodes :=
  ⟨⟨atOpcode _ _ _ _ _ _ _ (by decide) (by decide), atOpcode _ _ _ _ _ _ _ (by decide) (by decide),
      atOpcode _ _ _ _ _ _ _ (by decide) (by decide)⟩,
    ⟨atOpcode _ _ _ _ _ _ _ (by decide) (by decide), atOpcode _ _ _ _ _ _ _ (by decide) (by decide),
      atOpcode _ _ _ _ _ _ _ (by decide) (by decide)⟩, by decide, by decide⟩

/-- A step that answers a next state which is not a fault: the hypotheses of PcAdvancesPastTheInstruction, of the first
clauses of FlagsWrittenByCmpReadByJumps and of OnlyHltHalts, for a plain instruction and for a control transfer. -/
theorem witness_PcAdvancesPastTheInstruction :
    (∃ t, step (stateAt 0 [0xA0, 0, 1] 1 2 0 0xF4) = .next t ∧ t.status = .running ∧ t.pc = 3) ∧
      (∃ t, step (stateAt 0 [0x54, 0] 255 0 0 0xF4) = .next t ∧ t.status = .running ∧ t.pc = 255) :=
  ⟨⟨_, rfl, by decide, by decide⟩, ⟨_, rfl, by decide, by decide⟩⟩

theorem witness_RunningStepAnswersANextState : State.reset.status = .running := rfl

theorem witness_TerminalStatesHaveNoStep :
    ({ State.reset with status := .halted } : State).status = .halted ∧
      ({ State.reset with status := .faulted (.returnAddress 254) } : State).status = .faulted (.returnAddress 254) := by
  decide

/-- The hypotheses of ReportedFaultIsTheFirstInOrder, with several checks of R268 applying at once: POP R9 at SP = 255
(V-K10's form). -/
theorem witness_ReportedFaultIsTheFirstInOrder :
    ∃ t, stepWith true (stateAt 0 [0x46, 0x09] 0 0 0 255) = .next t ∧ t.status = .faulted (.registerIndex 9 0) ∧
      firstFault true (stateAt 0 [0x46, 0x09] 0 0 0 255) = some (.registerIndex 9 0) :=
  ⟨_, rfl, by decide, by decide⟩

theorem witness_FaultsArePrecise :
    ∃ t, step (stateAt 0 [0x45, 0x00] 5 0 0 0) = .next t ∧ t.status = .faulted (.stackBounds 0 0) := ⟨_, rfl, by decide⟩

theorem witness_OnlyHltHalts :
    (∃ t, step (stateAt 0 [0x01] 0 0 0 0xF4) = .next t ∧ t.status = .halted) ∧
      (∃ t, step State.reset = .next t) ∧ State.reset.pc ≤ 255 ∧ State.reset.mem.get State.reset.pc ∉ validOpcodes :=
  ⟨⟨_, rfl, by decide⟩, ⟨_, rfl⟩, by decide, by decide⟩

theorem witness_FlagsWrittenByCmpReadByJumps :
    (∃ t, step (stateAt 0 [0xA0, 0, 1] 1 2 0 0xF4) = .next t) ∧
      (stateAt 0 [0xA0, 0, 1] 1 2 0 0xF4).mem.get 0 ≠ 0xA7 ∧
      (∃ t, step (stateAt 0 [0xA7, 0, 1] 1 2 0 0xF4) = .next t ∧ t.status = .running) ∧
      (∃ t, step (stateAt 0 [0x56, 1] 1 2 0 0xF4) = .next t) ∧ (0xFE : Byte).getLsbD 0 = State.reset.fl.getLsbD 0 :=
  ⟨⟨_, rfl⟩, by decide, ⟨_, rfl, by decide⟩, ⟨_, rfl⟩, by decide⟩

theorem witness_OnlyPrnAppendsToOutput :
    (∃ t, step (stateAt 0 [0x47, 0x00] 9 0 0 0xF4) = .next t ∧ t.status = .running) ∧
      (∃ t, step (stateAt 0 [0x47, 0x08] 9 0 0 0xF4) = .next t ∧ t.status = .faulted (.registerIndex 8 0)) :=
  ⟨⟨_, rfl, by decide⟩, ⟨_, rfl, by decide⟩⟩

theorem witness_OnlyPushAndCallChangeMemory :
    ∃ t, step (stateAt 10 [0x45, 0x00] 9 0 0 255) = .next t ∧
      t.mem.get 254 ≠ (stateAt 10 [0x45, 0x00] 9 0 0 255).mem.get 254 := ⟨_, rfl, by decide⟩

/-- RET at address 0 with SP = 5: memory may differ everywhere but at 0 and at 5. -/
theorem witness_StepReadsOnlyDeclaredBytesAndStackTop :
    (∃ t, step (stateAt 0 [0x11, 1, 2, 3, 4, 5] 0 0 0 5) = .next t) ∧ numOperands 0x11 = 0 ∧
      Memory.get [(0, 0x11), (3, 9), (5, 5)] 0 = (stateAt 0 [0x11, 1, 2, 3, 4, 5] 0 0 0 5).mem.get 0 ∧
      Memory.get [(0, 0x11), (3, 9), (5, 5)] 5 = (stateAt 0 [0x11, 1, 2, 3, 4, 5] 0 0 0 5).mem.get 5 :=
  ⟨⟨_, rfl⟩, by decide, by decide, by decide⟩

theorem witness_PushOntoOwnOperandIsSeenNextTime :
    (stateAt 253 [0x45, 0x00] 9 0 0 255).mem.wf = true ∧ AtOpcode 0x45 (stateAt 253 [0x45, 0x00] 9 0 0 255) ∧
      (stateAt 253 [0x45, 0x00] 9 0 0 255).pc ≤ 253 ∧
      (stateAt 253 [0x45, 0x00] 9 0 0 255).mem.get 254 = regByte 0 ∧ (0 : Fin 8) ≠ 7 ∧
      ((stateAt 253 [0x45, 0x00] 9 0 0 255).reg 7).toNat = (stateAt 253 [0x45, 0x00] 9 0 0 255).pc + 2 :=
  ⟨by decide, atOpcode _ _ _ _ _ _ _ (by decide) (by decide), by decide, by decide, by decide, by decide⟩

/-- A state of the invariant with a program in it, and a step from it; and an HLT at 255, whose step halts at PC = 256,
right after the byte 0x01. -/
theorem witness_StepKeepsTheInvariant :
    ((stateAt 0 [0x45, 0x00] 5 0 0 0xF4).Inv ∧ ∃ t, step (stateAt 0 [0x45, 0x00] 5 0 0 0xF4) = .next t) ∧
      (stateAt 255 [0x01] 0 0 0 0xF4).Inv ∧ ∃ t, stepWith false (stateAt 255 [0x01] 0 0 0 0xF4) = .next t ∧
        t.status = .halted ∧ t.pc = 256 ∧ t.mem.get 255 = 0x01 :=
  ⟨⟨⟨by decide, by decide, fun c h => (by cases h), fun h => (by cases h)⟩, ⟨_, rfl⟩⟩,
    ⟨by decide, by decide, fun c h => (by cases h), fun h => (by cases h)⟩, ⟨_, rfl, by decide, by decide, by decide⟩⟩

theorem witness_FlagsStayInitialOrOneFlag :
    (∃ t, step (stateAt 0 [0xA7, 0, 1] 1 2 0 0xF4) = .next t) ∧
      ((stateAt 0 [0xA7, 0, 1] 1 2 0 0xF4).fl = 0 ∨ oneFlag (stateAt 0 [0xA7, 0, 1] 1 2 0 0xF4).fl) :=
  ⟨⟨_, rfl⟩, .inl rfl⟩

theorem witness_PushesThenPopsAreLastInFirstOut :
    State.reset.mem.wf = true ∧ (7 : Fin 8) ∉ ([0, 1] : List (Fin 8)) ∧ (7 : Fin 8) ∉ ([2, 3] : List (Fin 8)) ∧
      ([2, 3] : List (Fin 8)).Nodup ∧ ([0, 1] : List (Fin 8)).length ≤ (State.reset.reg 7).toNat := by decide

theorem witness_RetReturnsAfterTheCall :
    (stateAt 6 [0x50, 0x01] 0 11 0 0xF4).mem.wf = true ∧
      ∃ t, exec (.call 1) (stateAt 6 [0x50, 0x01] 0 11 0 0xF4) = .next t ∧ t.status = .running ∧ t.reg 7 = 0xF3 ∧
        t.mem.get 0xF3 = 8 := ⟨by decide, _, rfl, by decide, by decide, by decide⟩

theorem witness_JumpToItselfRunsForEver :
    AtOpcode 0x54 (stateAt 253 [0x54, 0x00] 253 0 0 0xF4) ∧ (stateAt 253 [0x54, 0x00] 253 0 0 0xF4).pc ≤ 253 ∧
      (stateAt 253 [0x54, 0x00] 253 0 0 0xF4).mem.get 254 = regByte 0 ∧
      ((stateAt 253 [0x54, 0x00] 253 0 0 0xF4).reg 0).toNat = (stateAt 253 [0x54, 0x00] 253 0 0 0xF4).pc :=
  ⟨atOpcode _ _ _ _ _ _ _ (by decide) (by decide), by decide, by decide, by decide⟩

theorem witness_RunEndsInExactlyOneWay : State.reset.status = .running := rfl

end Sys2Proof.Tests
end

/-! PROOFS. 00_scope.md: the reference configuration (R13). -/

namespace Sys2Proof.Machine

@[simp] theorem State.resetWith_mem (g : Vector Byte 7) (f : Byte) (image : Vector Byte 256) :
    (State.resetWith g f image).mem = Memory.ofImage image := rfl

/-- The image that the loader fills with zeros alone (R21) lists no cell. -/
theorem Memory.ofImage_replicate_zero : Memory.ofImage (Vector.replicate 256 0) = [] := by
  rw [Memory.ofImage, Vector.toList_replicate]
  exact Memory.ofBytes_zero 256 0

/-- Settles O47, field by field: an image of zeros leaves memory empty, and the other fields are given alike. -/
theorem modelResetIsTheReferenceConfiguration : Obligations.ModelResetIsTheReferenceConfiguration := by
  unfold Obligations.ModelResetIsTheReferenceConfiguration
  apply State.ext
  case mem => rw [State.resetWith_mem, Memory.ofImage_replicate_zero, State.reset]
  case regs => rfl
  case pc => rfl
  case fl => rfl
  case status => rfl
  case out => rfl

end Sys2Proof.Machine

/-! PROOFS. 10_state.md: the invariant of every step (R26), the frames of the instructions (R24), FL (R29, R30) and OUT
(R32). -/

namespace Sys2Proof.Machine

/-! ### What a handler does to PC, and what it raises -/

/-- The five control transfers, which set PC themselves (R79, R106). -/
def transfersControl : Instr → Bool
  | .call _ | .ret | .jmp _ | .jeq _ | .jne _ => true
  | _ => false

/-- The opcode's sets_pc bit marks the control transfers (R71, R79). -/
theorem setsPc_opcode (i : Instr) : setsPc (opcode i) = transfersControl i := by
  cases i <;> simp [setsPc, opcode, transfersControl]

/-- A handler leaves PC to the engine, or sets it itself: to a byte value, or past its one operand byte (R106). -/
theorem handle_ok_pc {i : Instr} {s u : State} (h : handle i s = .ok u) :
    (transfersControl i = false ∧ u.pc = s.pc) ∨
    (transfersControl i = true ∧ (u.pc ≤ 255 ∨ ((operandBytes i).length = 1 ∧ u.pc = s.pc + 2))) := by
  have byteLe (v : Byte) : v.toNat ≤ 255 := Nat.le_of_lt_succ v.isLt
  cases i <;> simp only [handle] at h
  case hlt => cases h; exact .inl ⟨rfl, rfl⟩
  case ldi => obtain ⟨_, _, rfl⟩ := handleLdi_ok h; exact .inl ⟨rfl, rfl⟩
  case prn => obtain ⟨_, _, rfl⟩ := handlePrn_ok h; exact .inl ⟨rfl, rfl⟩
  case push => obtain ⟨_, _, _, rfl⟩ := handlePush_ok h; exact .inl ⟨rfl, rfl⟩
  case pop => obtain ⟨_, _, _, rfl⟩ := handlePop_ok h; exact .inl ⟨rfl, rfl⟩
  case call => obtain ⟨_, _, _, _, rfl⟩ := handleCall_ok h; exact .inr ⟨rfl, .inl (byteLe _)⟩
  case ret => obtain ⟨_, rfl⟩ := handleRet_ok h; exact .inr ⟨rfl, .inl (byteLe _)⟩
  case cmp => obtain ⟨_, _, _, _, rfl⟩ := handleCmp_ok h; exact .inl ⟨rfl, rfl⟩
  case jmp => obtain ⟨_, _, rfl⟩ := jumpTo_ok h; exact .inr ⟨rfl, .inl (byteLe _)⟩
  case jeq | jne =>
    obtain ⟨_, _, _, rfl⟩ | ⟨_, rfl⟩ := branch_ok h
    · exact .inr ⟨rfl, .inl (byteLe _)⟩
    · exact .inr ⟨rfl, .inr ⟨rfl, rfl⟩⟩
  case not => obtain ⟨_, _, rfl⟩ := unaryAlu_ok h; exact .inl ⟨rfl, rfl⟩
  all_goals obtain ⟨_, _, _, _, rfl⟩ := binaryAlu_ok h; exact .inl ⟨rfl, rfl⟩

/-- An instruction whose bytes lie in memory leaves PC at 256 at most (R26). -/
theorem retire_pc_le {i : Instr} {s u : State} (h : handle i s = .ok u)
    (hn : s.pc + numOperands (opcode i) ≤ 255) : (u.retire i).pc ≤ 256 := by
  have hlen : (operandBytes i).length = numOperands (opcode i) := operandBytes_length i
  unfold State.retire
  rw [setsPc_opcode]
  obtain ⟨hp, hpc⟩ | ⟨hp, hpc⟩ := handle_ok_pc h
  · rw [hp, if_neg Bool.false_ne_true, State.setPc_pc]
    omega
  · rw [hp, if_pos rfl]
    omega

/-- A fault of the fetch phase records the PC of the instruction (R261, R263). -/
theorem fetch_error_pc {oob : Bool} {s : State} {c : Cause} (h : fetch oob s = .error c) : c.pc = s.pc := by
  obtain ⟨_, rfl⟩ | ⟨_, _, rfl⟩ | ⟨_, _, _, rfl⟩ := fetch_error h <;> rfl

/-- A handler that raises no fault leaves no fault in STATUS (R111). -/
theorem handle_ok_status_ne_faulted {i : Instr} {s u : State} (h : handle i s = .ok u) (hs : s.status = .running)
    (c : Cause) : u.status ≠ .faulted c := by
  rw [(handle_ok_effect h).status, hs]
  split <;> nofun

/-- A step that answers a next state raised a fault that records its PC, or retired the instruction at PC without one
(R109, R269, R270). -/
theorem step_raises_or_retires {s t : State} (h : step s = .next t) :
    (∃ c, c.pc = s.pc ∧ t = s.raise c) ∨
    (∃ i u, fetch Config.prefetchOobFault s = .ok i ∧ handle i s = .ok u ∧ t = u.retire i ∧ s.status = .running ∧
      ∀ c, t.status ≠ .faulted c) := by
  obtain ⟨hs, ⟨c, hf, rfl⟩ | ⟨i, hf, ⟨c, hh, rfl⟩ | ⟨u, hh, rfl⟩⟩⟩ := step_next_cases h
  · exact .inl ⟨c, fetch_error_pc hf, rfl⟩
  · exact .inl ⟨c, handle_error_pc hh, rfl⟩
  · refine .inr ⟨i, u, hf, hh, rfl, hs, fun c => ?_⟩
    rw [State.retire_status]
    exact handle_ok_status_ne_faulted hh hs c

/-! ### The invariant -/

/-- Fault entry at the PC that the fault records keeps the invariant (R270). -/
theorem State.Inv.raise {s : State} {c : Cause} (hi : s.Inv) (hc : c.pc = s.pc) : (s.raise c).Inv where
  memCanonical := hi.memCanonical
  pcReachable := hi.pcReachable
  faultPrecise c' h := by
    cases h
    exact hc
  haltAdvanced h := by cases h

/-- A handler keeps memory in its canonical form: the slot PUSH and CALL write is a byte address (R52). -/
theorem handle_ok_mem_wf {i : Instr} {s u : State} (h : handle i s = .ok u) (hw : s.mem.wf = true) :
    u.mem.wf = true := by
  obtain ⟨_, _, v, hm⟩ | ⟨_, hm⟩ := (handle_ok_effect h).mem
  · rw [hm]
    exact State.store_mem_wf s (pushSlot s) v hw
  · rwa [hm]

/-- From Running, the one handler that halts is HLT's (R130, R131). -/
theorem handle_ok_halted {i : Instr} {s u : State} (h : handle i s = .ok u) (hs : s.status = .running)
    (hu : u.status = .halted) : i = .hlt := by
  have hst := (handle_ok_effect h).status
  by_contra hi
  rw [if_neg hi, hs, hu] at hst
  cases hst

/-- Settles O43: a fault changes STATUS alone and records PC; an instruction that retires keeps memory canonical and PC
at most 256, and ends in Halted only as an HLT, with PC one past its own byte. -/
theorem stepKeepsTheInvariant : Obligations.StepKeepsTheInvariant := by
  unfold Obligations.StepKeepsTheInvariant
  intro s t hi hstep
  obtain ⟨c, hc, rfl⟩ | ⟨i, u, hf, hh, rfl, hs, hnf⟩ := step_raises_or_retires hstep
  · exact hi.raise hc
  · have hop := opcode_fetch hf
    refine ⟨?memCanonical, ?pcReachable, fun c hc => absurd hc (hnf c), fun hhalt => ?haltAdvanced⟩
    case memCanonical =>
      rw [State.retire_mem]
      exact handle_ok_mem_wf hh hi.memCanonical
    case pcReachable =>
      obtain ⟨_, _, _, _, hn, _⟩ := fetch_ok hf
      exact retire_pc_le hh (hop ▸ hn)
    case haltAdvanced =>
      rw [State.retire_status] at hhalt
      obtain rfl := handle_ok_halted hh hs hhalt
      cases hh
      rw [retire_hlt]
      exact ⟨Nat.le_add_left 1 s.pc, hop.symm⟩

/-! ### Frames -/

/-- The registers an instruction writes: its destination, and SP for the stack instructions (R24). -/
def writesReg : Instr → Fin 8 → Prop
  | .ldi a _, r | .add a _, r | .mul a _, r | .and a _, r | .or a _, r | .xor a _, r | .not a, r | .shl a _, r
  | .shr a _, r => a = regByte r
  | .push _, r | .call _, r | .ret, r => r = 7
  | .pop a, r => r = 7 ∨ a = regByte r
  | .hlt, _ | .prn _, _ | .cmp _ _, _ | .jmp _, _ | .jeq _, _ | .jne _, _ => False

/-- A write to the register an operand byte names leaves every register that the byte does not name. -/
theorem State.reg_setReg_unnamed (s : State) {i r : Fin 8} (v : Byte) (h : regByte i ≠ regByte r) :
    (s.setReg i v).reg r = s.reg r :=
  State.reg_setReg_other s i r v fun hir => h (hir ▸ rfl)

/-- A write to SP leaves every other register. -/
theorem State.reg_setSp_other (s : State) {r : Fin 8} (v : Byte) (h : r ≠ 7) : (s.setSp v).reg r = s.reg r :=
  State.reg_setReg_other s _ r v (Ne.symm h)

/-- A handler leaves every register that its instruction does not write (R24). -/
theorem handle_ok_reg {i : Instr} {s u : State} (h : handle i s = .ok u) {r : Fin 8} (hr : ¬ writesReg i r) :
    u.reg r = s.reg r := by
  cases i <;> simp only [handle] at h
  case hlt => cases h; rfl
  case ldi => obtain ⟨_, rfl, rfl⟩ := handleLdi_ok h; exact State.reg_setReg_unnamed s _ hr
  case prn => obtain ⟨_, _, rfl⟩ := handlePrn_ok h; rfl
  case push => obtain ⟨_, _, _, rfl⟩ := handlePush_ok h; exact State.reg_setSp_other s _ hr
  case pop =>
    obtain ⟨hsp, ha⟩ := not_or.mp hr
    obtain ⟨_, rfl, _, rfl⟩ := handlePop_ok h
    rw [State.reg_setSp_other _ _ hsp, State.reg_setReg_unnamed s _ ha]
  case call => obtain ⟨_, _, _, _, rfl⟩ := handleCall_ok h; exact State.reg_setSp_other s _ hr
  case ret => obtain ⟨_, rfl⟩ := handleRet_ok h; exact State.reg_setSp_other s _ hr
  case cmp => obtain ⟨_, _, _, _, rfl⟩ := handleCmp_ok h; rfl
  case jmp => obtain ⟨_, _, rfl⟩ := jumpTo_ok h; rfl
  case jeq | jne => obtain ⟨_, _, _, rfl⟩ | ⟨_, rfl⟩ := branch_ok h <;> rfl
  case not => obtain ⟨_, rfl, rfl⟩ := unaryAlu_ok h; exact State.reg_setReg_unnamed s _ hr
  all_goals obtain ⟨_, _, rfl, _, rfl⟩ := binaryAlu_ok h; exact State.reg_setReg_unnamed s _ hr

/-- The instructions that move SP, which alone can raise another fault than RegisterIndexFault (R262, R264, R265). -/
def usesStack : Instr → Bool
  | .push _ | .pop _ | .call _ | .ret => true
  | _ => false

/-- The one fault of a handler that does not use the stack is RegisterIndexFault (R262). -/
theorem handle_error_code {i : Instr} {s : State} {c : Cause} (h : handle i s = .error c) (hi : usesStack i = false) :
    c.code = .registerIndexFault := by
  cases i <;> simp only [handle] at h
  case hlt => cases h
  case push | pop | call | ret => cases hi
  case ldi => rw [(handleLdi_error h).2]; rfl
  case prn => rw [(handlePrn_error h).2]; rfl
  case cmp => obtain ⟨_, rfl⟩ | ⟨_, _, rfl⟩ := handleCmp_error h <;> rfl
  case jmp => rw [(jumpTo_error h).2]; rfl
  case jeq | jne => obtain ⟨_, _, rfl⟩ := branch_error h; rfl
  case not => rw [(unaryAlu_error h).2]; rfl
  all_goals obtain ⟨_, rfl⟩ | ⟨_, _, rfl⟩ := binaryAlu_error h <;> rfl

/-- What an instruction leaves unchanged, faulting or not (R24, R29, R32, R53): its frame. -/
structure ExecFrame (i : Instr) (s t : State) : Prop where
  reg : ∀ r, ¬ writesReg i r → t.reg r = s.reg r
  mem : ∀ x, ((∃ a, i = .push a ∨ i = .call a) → x ≠ (pushSlot s).toNat) → t.mem.get x = s.mem.get x
  fl : (∀ a b, i ≠ .cmp a b) → t.fl = s.fl
  out : (∀ a, i ≠ .prn a) → t.out = s.out
  status : i ≠ .hlt → t.status = s.status ∨ ∃ c, handle i s = .error c ∧ t = s.raise c

/-- Every next state that a meaning answers is in the instruction's frame. -/
theorem exec_frame {i : Instr} {s t : State} (h : exec i s = .next t) : ExecFrame i s t := by
  obtain ⟨c, hc, rfl⟩ | ⟨u, hu, rfl⟩ := exec_next_cases h
  · exact ⟨fun _ _ => rfl, fun _ _ => rfl, fun _ => rfl, fun _ => rfl, fun _ => .inr ⟨c, hc, rfl⟩⟩
  · obtain ⟨hstatus, hfl, hout, hmem⟩ := handle_ok_effect hu
    refine ⟨fun r hr => ?reg, fun x hx => ?mem, fun hi => ?fl, fun hi => ?out, fun hi => .inl ?status⟩
    case reg => rw [State.retire_reg, handle_ok_reg hu hr]
    case mem =>
      rw [State.retire_mem]
      obtain ⟨hi, _, v, hm⟩ | ⟨_, hm⟩ := hmem
      · rw [hm, Memory.get_set_other s.mem v (hx hi).symm]
      · rw [hm]
    case fl =>
      rw [State.retire_fl]
      obtain ⟨a, b, hab, _⟩ | ⟨_, hf⟩ := hfl
      · exact absurd hab (hi a b)
      · exact hf
    case out =>
      rw [State.retire_out]
      obtain ⟨r, hr, _⟩ | ⟨_, ho⟩ := hout
      · exact absurd hr (hi _)
      · exact ho
    case status => rw [State.retire_status, hstatus, if_neg hi]

/-- The STATUS clause of an instruction that neither halts nor uses the stack (R31, R262, R270). -/
theorem ExecFrame.status_or_registerIndexFault {i : Instr} {s t : State} (f : ExecFrame i s t) (hi : i ≠ .hlt)
    (hstack : usesStack i = false) :
    t.status = s.status ∨ ∃ c, c.code = .registerIndexFault ∧ t = { s with status := .faulted c } :=
  (f.status hi).imp_right fun ⟨c, hc, ht⟩ => ⟨c, handle_error_code hc hstack, ht⟩

/-- The STATUS clause of an instruction that does not halt (R31, R270). -/
theorem ExecFrame.status_or_fault {i : Instr} {s t : State} (f : ExecFrame i s t) (hi : i ≠ .hlt) :
    t.status = s.status ∨ ∃ c, t = { s with status := .faulted c } :=
  (f.status hi).imp_right fun ⟨c, _, ht⟩ => ⟨c, ht⟩

/-- Settles O25, from the frame of each of the nine instructions. -/
theorem registerWritersFrame : Obligations.RegisterWritersFrame := by
  unfold Obligations.RegisterWritersFrame
  intro a b s t h
  rcases h with h | h | h | h | h | h | h | h | h
  all_goals
    have f := exec_frame h
    exact ⟨f.reg, f.fl nofun, f.out nofun, fun x => f.mem x nofun, f.status_or_registerIndexFault nofun rfl⟩

/-- Settles O26, from the frame of each of the six instructions. -/
theorem nonWritersFrame : Obligations.NonWritersFrame := by
  unfold Obligations.NonWritersFrame
  intro a b i s t h hi
  have f := exec_frame h
  have hcmp (hne : i ≠ .cmp a b) (a' b' : Byte) : i ≠ .cmp a' b' := by
    rintro rfl
    exact hne (by simpa using hi)
  have hprn (hne : i ≠ .prn a) (a' : Byte) : i ≠ .prn a' := by
    rintro rfl
    exact hne (by simpa using hi)
  rcases hi with rfl | rfl | rfl | rfl | rfl | rfl
  all_goals
    exact ⟨fun r => f.reg r id, fun x => f.mem x nofun, fun hne => f.fl (hcmp hne), fun hne => f.out (hprn hne),
      fun hne => f.status_or_registerIndexFault hne rfl⟩

/-- Settles O27, from the frames of POP and RET. -/
theorem popAndRetFrame : Obligations.PopAndRetFrame := by
  unfold Obligations.PopAndRetFrame
  refine ⟨fun a s t h => ?pop, fun s t h => ?ret⟩
  case pop =>
    have f := exec_frame h
    exact ⟨fun r hsp ha => f.reg r (not_or.mpr ⟨hsp, ha⟩), f.fl nofun, f.out nofun, fun x => f.mem x nofun,
      f.status_or_fault nofun⟩
  case ret =>
    have f := exec_frame h
    exact ⟨f.reg, f.fl nofun, f.out nofun, fun x => f.mem x nofun, f.status_or_fault nofun⟩

/-- Settles O28, from the frames of PUSH and CALL, whose slot is the one address left out. -/
theorem pushAndCallFrame : Obligations.PushAndCallFrame := by
  unfold Obligations.PushAndCallFrame
  intro a s t h
  rcases h with h | h
  all_goals
    have f := exec_frame h
    refine ⟨f.reg, fun slot hslot x hx => f.mem x fun _ => ?_, f.fl nofun, f.out nofun, f.status_or_fault nofun⟩
    rwa [← hslot]

/-! ### The instruction that an opcode byte names -/

/-- What is fetched at an opcode byte is the byte's kind, with the two bytes that follow it (R72, R103). -/
theorem fetch_ok_kind {oob : Bool} {s : State} {i : Instr} {k : Byte → Byte → Instr} {op : Byte}
    (h : fetch oob s = .ok i) (hop : s.mem.get s.pc = op) (hk : dispatch op = some k) :
    i = k (s.mem.get (s.pc + 1)) (s.mem.get (s.pc + 2)) := by
  obtain ⟨k', hk', rfl, _⟩ := fetch_ok h
  rw [hop, hk] at hk'
  cases hk'
  rfl

/-! ### FL -/

/-- A step leaves FL or writes exactly one flag, and the latter only as a CMP (R29, R201). -/
theorem step_fl {s t : State} (h : step s = .next t) :
    t.fl = s.fl ∨ (s.mem.get s.pc = 0xA7 ∧ oneFlag t.fl) := by
  obtain ⟨c, _, rfl⟩ | ⟨i, u, hf, hh, rfl, _⟩ := step_raises_or_retires h
  · exact .inl rfl
  · rw [State.retire_fl, ← opcode_fetch hf]
    obtain ⟨a, b, rfl, hone⟩ | ⟨_, hfl⟩ := (handle_ok_effect hh).fl
    · exact .inr ⟨rfl, hone⟩
    · exact .inl hfl

/-- Settles O45, from the one writer of FL. -/
theorem flagsStayInitialOrOneFlag : Obligations.FlagsStayInitialOrOneFlag := by
  unfold Obligations.FlagsStayInitialOrOneFlag
  intro f0 s t hs h
  obtain hfl | ⟨_, hone⟩ := step_fl h
  · rwa [hfl]
  · exact .inr hone

/-- A CMP that a step completes leaves exactly one flag set (R200, R201). -/
theorem step_cmp_oneFlag {s t : State} (h : step s = .next t) (hop : s.mem.get s.pc = 0xA7)
    (ht : ∀ c, t.status ≠ .faulted c) : oneFlag t.fl := by
  obtain ⟨c, _, rfl⟩ | ⟨i, u, hf, hh, rfl, _⟩ := step_raises_or_retires h
  · exact absurd rfl (ht c)
  · obtain rfl := fetch_ok_kind (k := fun a b => .cmp a b) hf hop rfl
    obtain ⟨_, _, _, hone⟩ | ⟨hcmp, _⟩ := (handle_ok_effect hh).fl
    · rwa [State.retire_fl]
    · exact absurd rfl (hcmp _ _)

/-! The handlers commute with writing FL: all but CMP's, which overwrites it, and the branches, which test bit 0. -/

/-- Two handlers that go on alike from what a check gives, but for a change of the state, give the same but for that
change. -/
theorem handled_bind_map {α β : Type} {x : Except Cause α} {y : Except Cause β} {p : α → β} {g : α → Handled}
    {g' : β → Handled} {f : State → State} (hy : y = x.map p) (hg : ∀ v, g' (p v) = (g v).map f) :
    (y >>= g') = (x >>= g).map f := by
  subst hy
  cases x with
  | error c => rfl
  | ok v => exact hg v

/-- The case of `handled_bind_map` in which the check gives the same in both. -/
theorem handled_bind_map_same {α : Type} {x : Except Cause α} {g g' : α → Handled} {f : State → State}
    (hg : ∀ v, g' v = (g v).map f) : (x >>= g') = (x >>= g).map f :=
  handled_bind_map (p := id) (id_map x).symm hg

theorem openSlot_setFl (s : State) (v : Byte) : openSlot (s.setFl v) = (openSlot s).map (·.setFl v) := by
  unfold openSlot
  rw [State.setFl_sp]
  split <;> rfl

theorem binaryAlu_setFl (f : Byte → Byte → Byte) (a b : Byte) (s : State) (v : Byte) :
    binaryAlu f a b (s.setFl v) = (binaryAlu f a b s).map (·.setFl v) :=
  handled_bind_map_same fun _ => handled_bind_map_same fun _ => rfl

theorem jumpTo_setFl (a : Byte) (s : State) (v : Byte) : jumpTo a (s.setFl v) = (jumpTo a s).map (·.setFl v) :=
  handled_bind_map_same fun _ => rfl

theorem branch_setFl (taken : Bool) (a : Byte) (s : State) (v : Byte) :
    branch taken a (s.setFl v) = (branch taken a s).map (·.setFl v) := by
  cases taken with
  | true => exact jumpTo_setFl a s v
  | false => rfl

/-- CMP's handler reads no flag, and what it gives holds none of the old FL (R29, R201). -/
theorem handleCmp_setFl (a b : Byte) (s : State) (v : Byte) : handleCmp a b (s.setFl v) = handleCmp a b s := rfl

/-- Every other handler does the same from any other FL, JEQ's and JNE's from one with the same bit 0 (R29). -/
theorem handle_setFl {i : Instr} {s : State} {v : Byte} (hcmp : ∀ a b, i ≠ .cmp a b)
    (hbit : ∀ a, i = .jeq a ∨ i = .jne a → equalFlag v = equalFlag s.fl) :
    handle i (s.setFl v) = (handle i s).map (·.setFl v) := by
  cases i <;> simp only [handle]
  case hlt => rfl
  case cmp a b => exact absurd rfl (hcmp a b)
  case jmp => exact jumpTo_setFl _ s v
  case jeq a => rw [State.setFl_fl, hbit a (.inl rfl), branch_setFl]
  case jne a => rw [State.setFl_fl, hbit a (.inr rfl), branch_setFl]
  case push => exact handled_bind_map_same fun _ => handled_bind_map (openSlot_setFl s v) fun _ => rfl
  case call =>
    exact handled_bind_map_same fun _ => handled_bind_map (openSlot_setFl s v) fun _ =>
      handled_bind_map_same fun _ => rfl
  case pop => exact handled_bind_map_same fun _ => handled_bind_map_same fun _ => rfl
  case ldi | prn | ret | not => exact handled_bind_map_same fun _ => rfl
  all_goals exact binaryAlu_setFl _ _ _ s v

theorem retire_setFl (i : Instr) (s : State) (v : Byte) : (s.setFl v).retire i = (s.retire i).setFl v := by
  unfold State.retire
  split <;> rfl

/-- The fetch phase reads no flag (R29, R101). -/
theorem fetch_setFl (oob : Bool) (s : State) (v : Byte) : fetch oob (s.setFl v) = fetch oob s := rfl

/-- A step that is not a CMP does the same from any other FL, as JEQ and JNE do from one with the same bit 0, and leaves
that FL (R29). -/
theorem step_setFl_of_ne_cmp {s t : State} {v : Byte} (h : step s = .next t) (hop : s.mem.get s.pc ≠ 0xA7)
    (hbit : s.mem.get s.pc = 0x55 ∨ s.mem.get s.pc = 0x56 → equalFlag v = equalFlag s.fl) :
    step (s.setFl v) = .next (t.setFl v) := by
  obtain ⟨hs, ⟨c, hf, rfl⟩ | ⟨i, hf, hi⟩⟩ := step_next_cases h
  · exact step_fetch_error hs ((fetch_setFl _ s v).trans hf)
  · have hfetched := opcode_fetch hf
    rw [← hfetched] at hop hbit
    have hcmp (a b : Byte) : i ≠ .cmp a b := fun hi => hop (hi ▸ rfl)
    have hjump (a : Byte) (hi : i = .jeq a ∨ i = .jne a) : equalFlag v = equalFlag s.fl :=
      hbit (hi.imp (congrArg opcode) (congrArg opcode))
    rw [step_fetch_ok (s := s.setFl v) hs ((fetch_setFl _ s v).trans hf), exec_eq_complete, handle_setFl hcmp hjump]
    obtain ⟨c, hh, rfl⟩ | ⟨u, hh, rfl⟩ := hi
    · rw [hh]
      rfl
    · rw [hh, ← retire_setFl]
      rfl

/-- A CMP does the same from any other FL: it overwrites that FL, or faults and leaves it (R29, R201). -/
theorem step_cmp_setFl {s t : State} {v : Byte} (h : step s = .next t) (hop : s.mem.get s.pc = 0xA7) :
    step (s.setFl v) = .next (t.setFl (if t.status = .running then t.fl else v)) := by
  obtain ⟨hs, ⟨c, hf, rfl⟩ | ⟨i, hf, hi⟩⟩ := step_next_cases h
  · exact step_fetch_error hs ((fetch_setFl _ s v).trans hf)
  · obtain rfl := fetch_ok_kind (k := fun a b => .cmp a b) hf hop rfl
    rw [step_fetch_ok (s := s.setFl v) hs ((fetch_setFl _ s v).trans hf), exec_eq_complete]
    obtain ⟨c, hh, rfl⟩ | ⟨u, hh, rfl⟩ := hi
    · exact complete_error ((handleCmp_setFl _ _ s v).trans hh)
    · have hrun : u.status = .running := (handle_ok_effect hh).status.trans hs
      rw [State.retire_status, if_pos hrun]
      exact complete_ok ((handleCmp_setFl _ _ s v).trans hh)

/-- Settles O38: the one writer of FL, and the steps from another FL, of CMP and of the rest. -/
theorem flagsWrittenByCmpReadByJumps : Obligations.FlagsWrittenByCmpReadByJumps := by
  unfold Obligations.FlagsWrittenByCmpReadByJumps
  refine ⟨fun s t h hop => ?unwritten, fun s t => step_cmp_oneFlag, fun s t v h hbit => ?unread⟩
  case unwritten => exact (step_fl h).resolve_right fun hcmp => hop hcmp.1
  case unread =>
    by_cases hop : s.mem.get s.pc = 0xA7
    · simp only [hop, true_and]
      exact step_cmp_setFl h hop
    · simp only [hop, false_and, if_false]
      exact step_setFl_of_ne_cmp h hop hbit

/-! ### OUT -/

/-- A step that is not a completed PRN leaves OUT (R32). -/
theorem step_out_of_ne_prn {s t : State} (h : step s = .next t)
    (hprn : s.mem.get s.pc ≠ 0x47 ∨ ∃ c, t.status = .faulted c) : t.out = s.out := by
  obtain ⟨c, _, rfl⟩ | ⟨i, u, hf, hh, rfl, _, hnf⟩ := step_raises_or_retires h
  · rfl
  · rw [State.retire_out]
    obtain ⟨r, rfl, _⟩ | ⟨_, hout⟩ := (handle_ok_effect hh).out
    · obtain hop | ⟨c, hc⟩ := hprn
      · exact absurd (opcode_fetch hf).symm hop
      · exact absurd hc (hnf c)
    · exact hout

/-- A completed PRN appends the value of the register that its operand byte names (R32, R136). -/
theorem step_prn_out {s t : State} (h : step s = .next t) (hop : s.mem.get s.pc = 0x47)
    (ht : ∀ c, t.status ≠ .faulted c) : ∃ r, s.mem.get (s.pc + 1) = regByte r ∧ t.out = s.out ++ [s.reg r] := by
  obtain ⟨c, _, rfl⟩ | ⟨i, u, hf, hh, rfl, _⟩ := step_raises_or_retires h
  · exact absurd rfl (ht c)
  · obtain rfl := fetch_ok_kind (k := fun a _ => .prn a) hf hop rfl
    obtain ⟨r, ha, rfl⟩ := handlePrn_ok hh
    exact ⟨r, ha, State.retire_out _ _⟩

/-- Settles O39. -/
theorem onlyPrnAppendsToOutput : Obligations.OnlyPrnAppendsToOutput := by
  unfold Obligations.OnlyPrnAppendsToOutput
  exact ⟨fun _ _ _ => rfl, fun _ _ => step_out_of_ne_prn, fun _ _ => step_prn_out⟩

end Sys2Proof.Machine

/-! PROOFS. 20_memory.md: what a step writes to memory (R52, R53), what it reads there (R53, R76), and a push onto the
instruction's own bytes (R61). -/

namespace Sys2Proof.Machine

/-! ### What a step writes -/

/-- A step leaves memory, or writes the one slot below SP as a PUSH or CALL (R52, R53). -/
theorem step_mem {s t : State} (h : step s = .next t) :
    t.mem = s.mem ∨
    ((s.mem.get s.pc = 0x45 ∨ s.mem.get s.pc = 0x50) ∧ s.sp ≠ 0 ∧ ∃ v, t.mem = s.mem.set (pushSlot s).toNat v) := by
  obtain ⟨c, _, rfl⟩ | ⟨i, u, hf, hh, rfl, _⟩ := step_raises_or_retires h
  · exact .inl rfl
  · rw [State.retire_mem, ← opcode_fetch hf]
    obtain ⟨⟨a, hi⟩, hslot⟩ | ⟨_, hmem⟩ := (handle_ok_effect hh).mem
    · exact .inr ⟨hi.imp (congrArg opcode) (congrArg opcode), hslot⟩
    · exact .inl hmem

/-- Settles O40: the slot of `step_mem` is at SP - 1, and no other address reads differently. -/
theorem onlyPushAndCallChangeMemory : Obligations.OnlyPushAndCallChangeMemory := by
  unfold Obligations.OnlyPushAndCallChangeMemory
  intro s t x h hx
  obtain hmem | ⟨hop, hsp, v, hmem⟩ := step_mem h
  · exact absurd (congrArg (Memory.get · x) hmem) hx
  · have hslot : (pushSlot s).toNat = x := by
      by_contra hne
      rw [hmem, Memory.get_set_other s.mem v hne] at hx
      exact hx rfl
    rw [pushSlot_toNat hsp] at hslot
    have hpos : s.sp.toNat ≠ 0 := fun h0 => hsp (BitVec.eq_of_toNat_eq h0)
    have hlt := s.sp.isLt
    rw [← State.sp_eq_reg]
    exact ⟨hop, by omega, by omega⟩

/-! ### What a step reads

The step from another memory is compared with the step from the old one by what they give apart from memory. -/

/-- The state with another memory. -/
def State.setMem (s : State) (m : Memory) : State := { s with mem := m }

/-- A state apart from its memory: registers, PC, FL, STATUS and OUT. -/
def State.withoutMem (s : State) : State := s.setMem []

@[simp] theorem State.setMem_sp (s : State) (m : Memory) : (s.setMem m).sp = s.sp := rfl

theorem State.withoutMem_inj {s t : State} (h : s.withoutMem = t.withoutMem) :
    s.regs = t.regs ∧ s.pc = t.pc ∧ s.fl = t.fl ∧ s.status = t.status ∧ s.out = t.out :=
  (State.mk.inj h).2

theorem State.retire_withoutMem (s : State) (i : Instr) : (s.retire i).withoutMem = s.withoutMem.retire i := by
  unfold State.retire
  split <;> rfl

/-- The fetch phase gives the same from every memory that agrees on the opcode and on its declared operand bytes (R76,
R103, R104). -/
theorem fetch_setMem {oob : Bool} {s : State} {m : Memory}
    (h : ∀ k, k ≤ numOperands (s.mem.get s.pc) → m.get (s.pc + k) = s.mem.get (s.pc + k)) :
    fetch oob (s.setMem m) = fetch oob s := by
  have hop : m.get s.pc = s.mem.get s.pc := h 0 (Nat.zero_le _)
  cases hf : fetch oob s with
  | ok i =>
    obtain ⟨k, hd, rfl, _, hn, ho⟩ := fetch_ok hf
    rw [fetch_within (s := s.setMem m) (hop ▸ hd) (hop ▸ hn) ho]
    exact congrArg Except.ok (kind_ignores_undeclared hd (h 1) (h 2))
  | error c =>
    obtain ⟨hpc, rfl⟩ | ⟨hpc, hd, rfl⟩ | ⟨hpc, hd, hp, rfl⟩ := fetch_error hf
    · exact fetch_above (s := s.setMem m) hpc
    · rw [← hop] at hd ⊢
      exact fetch_invalid (s := s.setMem m) hpc hd
    · obtain ⟨k, hk⟩ := Option.ne_none_iff_exists'.mp hd
      exact fetch_past (s := s.setMem m) hpc (hop ▸ hk) (hop ▸ hp)

/-- Two handlers that go on alike from what a check gives, memory apart, give the same, memory apart. -/
theorem withoutMem_bind {α β : Type} {x : Except Cause α} {y : Except Cause β} {p : α → β} {g : α → Handled}
    {g' : β → Handled} (hy : y = x.map p) (hg : ∀ v, (g' (p v)).map State.withoutMem = (g v).map State.withoutMem) :
    (y >>= g').map State.withoutMem = (x >>= g).map State.withoutMem :=
  (map_bind State.withoutMem y g').trans (handled_bind_map hy hg)

/-- The case of `withoutMem_bind` in which the check gives the same in both. -/
theorem withoutMem_bind_same {α : Type} {x : Except Cause α} {g g' : α → Handled}
    (hg : ∀ v, (g' v).map State.withoutMem = (g v).map State.withoutMem) :
    (x >>= g').map State.withoutMem = (x >>= g).map State.withoutMem :=
  withoutMem_bind (p := id) (id_map x).symm hg

theorem openSlot_setMem (s : State) (m : Memory) : openSlot (s.setMem m) = (openSlot s).map (·.setMem m) := by
  unfold openSlot
  rw [State.setMem_sp]
  split <;> rfl

theorem binaryAlu_setMem (f : Byte → Byte → Byte) (a b : Byte) (s : State) (m : Memory) :
    (binaryAlu f a b (s.setMem m)).map State.withoutMem = (binaryAlu f a b s).map State.withoutMem :=
  withoutMem_bind_same fun _ => withoutMem_bind_same fun _ => rfl

theorem jumpTo_setMem (a : Byte) (s : State) (m : Memory) :
    (jumpTo a (s.setMem m)).map State.withoutMem = (jumpTo a s).map State.withoutMem :=
  withoutMem_bind_same fun _ => rfl

theorem branch_setMem (taken : Bool) (a : Byte) (s : State) (m : Memory) :
    (branch taken a (s.setMem m)).map State.withoutMem = (branch taken a s).map State.withoutMem := by
  cases taken with
  | true => exact jumpTo_setMem a s m
  | false => rfl

/-- What a handler gives apart from memory depends on memory only in POP and RET, which read the cell at SP (R53). -/
theorem handle_setMem {i : Instr} {s : State} {m : Memory}
    (hload : (∃ a, i = .pop a) ∨ i = .ret → (s.setMem m).load s.sp = s.load s.sp) :
    (handle i (s.setMem m)).map State.withoutMem = (handle i s).map State.withoutMem := by
  cases i <;> simp only [handle]
  case hlt => rfl
  case pop a =>
    have hcell := hload (.inl ⟨a, rfl⟩)
    rw [handlePop, State.setMem_sp, hcell]
    exact withoutMem_bind_same fun _ => withoutMem_bind_same fun _ => rfl
  case ret =>
    have hcell := hload (.inr rfl)
    rw [handleRet, State.setMem_sp, hcell]
    exact withoutMem_bind_same fun _ => rfl
  case push => exact withoutMem_bind_same fun _ => withoutMem_bind (openSlot_setMem s m) fun _ => rfl
  case call =>
    exact withoutMem_bind_same fun _ => withoutMem_bind (openSlot_setMem s m) fun _ => withoutMem_bind_same fun _ => rfl
  case jmp => exact jumpTo_setMem _ s m
  case jeq | jne => exact branch_setMem _ _ s m
  case ldi | prn | not => exact withoutMem_bind_same fun _ => rfl
  case cmp => exact withoutMem_bind_same fun _ => withoutMem_bind_same fun _ => rfl
  all_goals exact binaryAlu_setMem _ _ _ s m

theorem handled_eq_error_of_map {x : Handled} {f : State → State} {c : Cause} (h : x.map f = .error c) :
    x = .error c := by
  cases x <;> cases h
  rfl

theorem handled_eq_ok_of_map {x : Handled} {f : State → State} {v : State} (h : x.map f = .ok v) :
    ∃ u, x = .ok u ∧ f u = v := by
  cases x <;> cases h
  exact ⟨_, rfl, rfl⟩

/-- What a meaning answers, apart from memory, depends on memory as its handler does. -/
theorem exec_setMem {i : Instr} {s t : State} {m : Memory}
    (hload : (∃ a, i = .pop a) ∨ i = .ret → (s.setMem m).load s.sp = s.load s.sp) (h : exec i s = .next t) :
    ∃ t', exec i (s.setMem m) = .next t' ∧ t'.withoutMem = t.withoutMem := by
  have hsame := handle_setMem hload
  rw [exec_eq_complete]
  obtain ⟨c, hc, rfl⟩ | ⟨u, hu, rfl⟩ := exec_next_cases h
  · rw [hc] at hsame
    exact ⟨_, complete_error (handled_eq_error_of_map hsame), rfl⟩
  · rw [hu] at hsame
    obtain ⟨u', hu', heq⟩ := handled_eq_ok_of_map hsame
    exact ⟨_, complete_ok hu', by rw [State.retire_withoutMem, State.retire_withoutMem, heq]⟩

/-- Settles O41: the fetch phase gives the same instruction or fault, and the handler's result differs in memory alone. -/
theorem stepReadsOnlyDeclaredBytesAndStackTop : Obligations.StepReadsOnlyDeclaredBytesAndStackTop := by
  unfold Obligations.StepReadsOnlyDeclaredBytesAndStackTop
  intro s m t h hbytes hcell
  suffices hstep : ∃ t', step (s.setMem m) = .next t' ∧ t'.withoutMem = t.withoutMem from
    hstep.imp fun _ ht' => ht'.imp_right State.withoutMem_inj
  have hfetch := fetch_setMem (oob := Config.prefetchOobFault) hbytes
  obtain ⟨hs, ⟨c, hf, rfl⟩ | ⟨i, hf, _⟩⟩ := step_next_cases h
  · exact ⟨_, step_fetch_error hs (hfetch.trans hf), rfl⟩
  · rw [step_fetch_ok hs hf] at h
    rw [step_fetch_ok (s := s.setMem m) hs (hfetch.trans hf)]
    refine exec_setMem (fun hi => hcell ?_) h
    rw [← opcode_fetch hf]
    exact hi.imp (fun ⟨_, ha⟩ => congrArg opcode ha) (congrArg opcode)

/-! ### A push onto the instruction's own bytes -/

/-- PUSH of a register that SP leaves room for (R150). -/
theorem exec_push_regByte {s : State} (r : Fin 8) (h : s.sp ≠ 0) :
    exec (.push (regByte r)) s =
      .next (((s.setSp (pushSlot s)).store (pushSlot s) ((s.setSp (pushSlot s)).reg r)).setPc (s.pc + 2)) := by
  have hh : handlePush (regByte r) s =
      .ok ((s.setSp (pushSlot s)).store (pushSlot s) ((s.setSp (pushSlot s)).reg r)) := by
    rw [handlePush, regIndex_regByte, openSlot_pos h]
    rfl
  rw [exec_eq_complete]
  exact (complete_ok hh).trans (congrArg _ (retire_push _ _))

/-- Settles O42: the operand was fetched before the store, and SP - 1 is the operand's address. -/
theorem pushOntoOwnOperandIsSeenNextTime : Obligations.PushOntoOwnOperandIsSeenNextTime := by
  unfold Obligations.PushOntoOwnOperandIsSeenNextTime
  intro s r hwf ⟨hrun, _, hop⟩ hpc hoperand hr hsp
  have hsp0 : s.sp ≠ 0 := fun h0 => by
    rw [← State.sp_eq_reg, h0] at hsp
    cases hsp
  have hslot : (pushSlot s).toNat = s.pc + 1 := by
    rw [pushSlot_toNat hsp0, State.sp_eq_reg, hsp]
    rfl
  have hfetch : fetch Config.prefetchOobFault s = .ok (.push (regByte r)) := by
    rw [← hoperand]
    exact fetch_below (k := fun a _ => .push a) hpc (hop ▸ rfl)
  refine ⟨_, (step_fetch_ok hrun hfetch).trans (exec_push_regByte r hsp0), hrun, ?pushed, fun x hx => ?others⟩
  case pushed =>
    rw [fetchByte_within (by omega), State.setPc_mem, State.store_get (s.setSp _) _ _ hwf, if_pos hslot,
      State.reg_setSp_other s _ hr]
  case others =>
    rw [State.setPc_mem, State.store_get_other _ _ _ (hslot ▸ hx)]
    rfl

end Sys2Proof.Machine

/-! PROOFS. 30_encoding.md: the decoder and the encoder are inverse (R70, R74), the opcode's fields (R71, R79), and the
bytes outside the table (R82). -/

namespace Sys2Proof

/-! ### Encoder and decoder -/

/-- Every instruction is decoded from its own bytes, whatever follows them: the bytes that follow reach the kind only as
undeclared operands (R74, R76). -/
theorem decode_encode_append (i : Instr) (rest : List Byte) : decode (encode i ++ rest) = .ok (i, rest) := by
  obtain ⟨k, hk, hi, -, -⟩ := dispatch_opcode i
  have hlen : (operandBytes i).length = numOperands (opcode i) := operandBytes_length i
  have hl : numOperands (opcode i) ≤ (operandBytes i ++ rest).length := by
    rw [List.length_append]
    omega
  have operand (j : Nat) (hj : j + 1 ≤ numOperands (opcode i)) :
      (operandBytes i ++ rest).getD j 0 = (operandBytes i).getD j 0 :=
    List.getD_append _ _ _ _ (by omega)
  have hkind : k ((operandBytes i ++ rest).getD 0 0) ((operandBytes i ++ rest).getD 1 0) = i :=
    (kind_ignores_undeclared hk (operand 0) (operand 1)).trans hi
  calc decode (encode i ++ rest)
      = .ok (k ((operandBytes i ++ rest).getD 0 0) ((operandBytes i ++ rest).getD 1 0),
          (operandBytes i ++ rest).drop (numOperands (opcode i))) :=
        decode_cons hk hl
    _ = .ok (i, rest) := by rw [hkind, List.drop_left' hlen]

/-- The candidate operand bytes that are declared are the front of the bytes after the opcode (R74). -/
theorem take_candidates {bytes : List Byte} {n : Nat} (h2 : n ≤ 2) (hl : n ≤ bytes.length) :
    [bytes.getD 0 0, bytes.getD 1 0].take n = bytes.take n := by
  refine List.ext_getElem (by simp; omega) fun j hj _ => ?_
  have hjn : j < n := (List.length_take ▸ hj).trans_le (Nat.min_le_left _ _)
  rw [List.getElem_take, List.getElem_take]
  obtain rfl | rfl : j = 0 ∨ j = 1 := by omega
  · exact List.getD_eq_getElem _ _ _
  · exact List.getD_eq_getElem _ _ _

/-- What the table finds for a byte is encoded as that byte and the declared ones of its two operands (R70, R74). -/
theorem encode_kind {op : Byte} {k : Byte → Byte → Instr} (h : dispatch op = some k) (a b : Byte) :
    encode (k a b) = op :: [a, b].take (numOperands op) := by
  rw [encode, dispatch_sound h, operandBytes_kind h]

/-- Settles O1. -/
theorem decodeInvertsEncode : Obligations.DecodeInvertsEncode :=
  decode_encode_append

/-- Settles O2: the decoder takes the opcode and the declared bytes, which are what the encoder gives back. -/
theorem encodeInvertsDecode : Obligations.EncodeInvertsDecode := by
  unfold Obligations.EncodeInvertsDecode
  intro bytes i rest h
  obtain ⟨op, tail, k, rfl, hk, hl, rfl, rfl⟩ := decode_ok h
  rw [encode_kind hk, take_candidates (numOperands_le_two hk) hl, List.cons_append, List.take_append_drop]

/-- Settles O3, by running the decoder on each word. -/
theorem wordsDecodeToTheirInstruction : Obligations.WordsDecodeToTheirInstruction := by
  unfold Obligations.WordsDecodeToTheirInstruction
  decide

/-! ### The opcode's fields -/

/-- CMP and the eight ALU operations, which the opcode routes through the ALU (R79). -/
def routedThroughAlu : Instr → Bool
  | .cmp _ _ | .add _ _ | .mul _ _ | .and _ _ | .or _ _ | .xor _ _ | .not _ | .shl _ _ | .shr _ _ => true
  | _ => false

/-- The opcode's is_alu bit marks the instructions routed through the ALU (R71, R79). -/
theorem isAlu_opcode (i : Instr) : isAlu (opcode i) = routedThroughAlu i := by
  cases i <;> simp [isAlu, opcode, routedThroughAlu]

/-- An instruction is its opcode byte and the operand bytes that the opcode declares (R70, R71). -/
theorem encode_length (i : Instr) : (encode i).length = 1 + numOperands (opcode i) := by
  have hlen : (operandBytes i).length = numOperands (opcode i) := operandBytes_length i
  rw [encode, List.length_cons, hlen, Nat.add_comm]

/-- Settles O4: each bit marks a set of instructions, which is compared with the listed ones constructor by
constructor. -/
theorem opcodeFieldsAgreeWithInstruction : Obligations.OpcodeFieldsAgreeWithInstruction := by
  unfold Obligations.OpcodeFieldsAgreeWithInstruction
  refine fun i => ⟨encode_length i, ?setsPc, ?isAlu⟩
  case setsPc =>
    rw [Machine.setsPc_opcode]
    cases i <;> simp [Machine.transfersControl]
  case isAlu =>
    rw [isAlu_opcode]
    cases i <;> simp [routedThroughAlu]

/-! ### Bytes outside the table -/

/-- The valid opcode bytes are those of the instructions (R78). -/
theorem mem_validOpcodes_iff (op : Byte) : op ∈ Machine.validOpcodes ↔ ∃ i, opcode i = op := by
  constructor
  · intro h
    obtain ⟨k, hk⟩ := dispatch_of_valid h
    exact ⟨k 0 0, dispatch_sound hk 0 0⟩
  · rintro ⟨i, rfl⟩
    obtain ⟨k, hk, -⟩ := dispatch_opcode i
    by_contra hn
    rw [(dispatch_eq_none_iff _).mpr hn] at hk
    cases hk

namespace Machine

/-- A step from an invalid opcode byte enters the fault of the decode phase, which comes before both operand fetches
(R82, R102). -/
theorem stepWith_invalid {op : Byte} {s : State} (oob : Bool) (hop : op ∉ validOpcodes) (h : AtOpcode op s) :
    stepWith oob s = .next (s.raise (.invalidOpcode op s.pc)) := by
  obtain ⟨hrun, hpc, rfl⟩ := h
  rw [stepWith_running hrun, fetch_invalid hpc ((dispatch_eq_none_iff _).mpr hop)]

/-- Settles O5. -/
theorem invalidOpcodeFaultsFirst : Obligations.InvalidOpcodeFaultsFirst := by
  unfold Obligations.InvalidOpcodeFaultsFirst
  refine ⟨by decide, rfl, by decide, ?fields, mem_validOpcodes_iff, ?faults⟩
  case fields =>
    intro op hop
    obtain ⟨k, hk⟩ := dispatch_of_valid hop
    exact Nat.ne_of_lt (Nat.lt_succ_of_le (numOperands_le_two hk))
  case faults => exact fun op hop oob s h => stepWith_invalid oob hop h

end Machine

end Sys2Proof

/-! PROOFS. 40_engine.md: the step's fetch phase and its bounds (R101 to R104, R109), the PC update (R106), which states
have a step (R100, R112), and how a run ends (R113). -/

namespace Sys2Proof.Machine

/-! ### The bytes at PC -/

theorem bytesAtPc_length (s : State) : (bytesAtPc s).length = 256 - s.pc := by
  simp [bytesAtPc]

theorem bytesAtPc_getD {s : State} {k : Nat} (h : s.pc + k ≤ 255) :
    (bytesAtPc s).getD k 0 = s.mem.get (s.pc + k) := by
  have hk : k < 256 - s.pc := by omega
  simp [bytesAtPc, List.getD, hk]

/-- The bytes at PC are the opcode byte and the bytes at the next address. -/
theorem bytesAtPc_cons {s : State} (h : s.pc ≤ 255) :
    bytesAtPc s = s.mem.get s.pc :: bytesAtPc (s.setPc (s.pc + 1)) := by
  have hlen : 256 - s.pc = (256 - (s.pc + 1)) + 1 := by omega
  rw [bytesAtPc, hlen, List.range_succ_eq_map, List.map_cons, List.map_map]
  refine congrArg (s.mem.get s.pc :: ·) (List.map_congr_left fun k _ => ?_)
  exact congrArg s.mem.get (by simp; omega)

/-- The candidate operand bytes of an instruction at PC, where they are declared, are the two bytes that follow (R74,
R103). -/
theorem kind_bytesAfterOpcode {s : State} {k : Byte → Byte → Instr} (hd : dispatch (s.mem.get s.pc) = some k)
    (hn : s.pc + numOperands (s.mem.get s.pc) ≤ 255) :
    k ((bytesAtPc (s.setPc (s.pc + 1))).getD 0 0) ((bytesAtPc (s.setPc (s.pc + 1))).getD 1 0) =
      k (s.mem.get (s.pc + 1)) (s.mem.get (s.pc + 2)) := by
  refine kind_ignores_undeclared hd (fun h1 => ?_) (fun h2 => ?_)
  · exact bytesAtPc_getD (by rw [State.setPc_pc]; omega)
  · exact bytesAtPc_getD (by rw [State.setPc_pc]; omega)

/-- What the decoder reads at PC when the declared operand bytes lie in memory (R70, R103). -/
theorem decode_bytesAtPc {s : State} {k : Byte → Byte → Instr} (hd : dispatch (s.mem.get s.pc) = some k)
    (hn : s.pc + numOperands (s.mem.get s.pc) ≤ 255) :
    decode (bytesAtPc s) = .ok (k (s.mem.get (s.pc + 1)) (s.mem.get (s.pc + 2)),
      (bytesAtPc s).drop (1 + numOperands (s.mem.get s.pc))) := by
  rw [bytesAtPc_cons (by omega), decode_cons hd (by rw [bytesAtPc_length, State.setPc_pc]; omega),
    kind_bytesAfterOpcode hd hn, Nat.add_comm 1, List.drop_succ_cons]

/-- Everything the decoder can accept at PC: a valid opcode whose declared operand bytes lie in memory. -/
theorem decode_bytesAtPc_ok {s : State} {i : Instr} {rest : List Byte} (h : decode (bytesAtPc s) = .ok (i, rest)) :
    ∃ k, dispatch (s.mem.get s.pc) = some k ∧ s.pc + numOperands (s.mem.get s.pc) ≤ 255 ∧
      i = k (s.mem.get (s.pc + 1)) (s.mem.get (s.pc + 2)) := by
  obtain ⟨op, tail, k, hbytes, hd, hl, hi, -⟩ := decode_ok h
  have hpc : s.pc ≤ 255 := by
    have hlen := bytesAtPc_length s
    rw [hbytes, List.length_cons] at hlen
    omega
  rw [bytesAtPc_cons hpc] at hbytes
  obtain ⟨rfl, rfl⟩ := List.cons.inj hbytes
  rw [bytesAtPc_length, State.setPc_pc] at hl
  have hn : s.pc + numOperands (s.mem.get s.pc) ≤ 255 := by omega
  exact ⟨k, hd, hn, hi.trans (kind_bytesAfterOpcode hd hn)⟩

/-! ### The fetch phase of a step -/

/-- A step from a valid opcode: the MemoryBoundsFault of an operand byte past memory, which must be a declared one or
else PREFETCH_OOB_FAULT holds, or the meaning of the instruction at PC (R103, R104, R109). -/
theorem stepWith_valid {oob : Bool} {s : State} {k : Byte → Byte → Instr} (hs : s.status = .running)
    (hpc : s.pc ≤ 255) (hd : dispatch (s.mem.get s.pc) = some k) :
    stepWith oob s =
      if 255 < s.pc + numOperands (s.mem.get s.pc) ∨ (oob = true ∧ 255 < s.pc + 2) then
        .next (s.raise (.memoryBounds 256 s.pc))
      else exec (k (s.mem.get (s.pc + 1)) (s.mem.get (s.pc + 2))) s := by
  split
  case isTrue hp => rw [stepWith_running hs, fetch_past hpc hd hp]
  case isFalse hp =>
    obtain ⟨hn, ho⟩ := not_or.mp hp
    rw [stepWith_running hs, fetch_within hd (Nat.not_lt.mp hn) fun h => Nat.not_lt.mp fun hc => ho ⟨h, hc⟩]

/-- Settles O31: the three placements are the cases of `stepWith_valid`, an opcode declaring two operand bytes at
most. -/
theorem undeclaredOperandAboveMemory : Obligations.UndeclaredOperandAboveMemory := by
  unfold Obligations.UndeclaredOperandAboveMemory
  refine ⟨?undeclared, ?declared, ?below⟩
  case undeclared =>
    rintro op s ⟨hs, hpc, rfl⟩ hop hn hp
    obtain ⟨k, hd⟩ := dispatch_of_valid hop
    refine ⟨by omega, ?_, _, decode_bytesAtPc hd hn, ?_⟩
    · rw [stepWith_valid hs hpc hd, if_pos (.inr ⟨rfl, hp⟩), State.raise]
    · rw [stepWith_valid hs hpc hd, if_neg (by simpa using hn)]
  case declared =>
    rintro op oob s ⟨hs, hpc, rfl⟩ hop hp
    obtain ⟨k, hd⟩ := dispatch_of_valid hop
    rw [stepWith_valid hs hpc hd, if_pos (.inl (by omega)), State.raise]
  case below =>
    rintro op oob s ⟨hs, _, rfl⟩ hop hpc
    obtain ⟨k, hd⟩ := dispatch_of_valid hop
    have hn := numOperands_le_two hd
    rw [stepWith_valid hs (by omega) hd, stepWith_valid hs (by omega) hd, if_neg (by omega), if_neg (by omega)]

/-- Settles O29: what the decoder accepts at PC has its declared bytes in memory, which leaves the undeclared ones. -/
theorem stepRunsTheDecodedInstruction : Obligations.StepRunsTheDecodedInstruction := by
  unfold Obligations.StepRunsTheDecodedInstruction
  refine ⟨fun oob s i rest hs h => ?_, fun _ => rfl⟩
  obtain ⟨k, hd, hn, rfl⟩ := decode_bytesAtPc_ok h
  rw [stepWith_valid hs (by omega) hd]
  simp only [Nat.not_lt.mpr hn, false_or, State.raise]

/-- Settles O30. -/
theorem fetchAboveMemoryFaults : Obligations.FetchAboveMemoryFaults := by
  unfold Obligations.FetchAboveMemoryFaults
  refine ⟨fun oob s hs hpc => ?above, fun s hpc => fetchByte_within hpc, fun s hs hpc hop => ?hltAt255⟩
  case above =>
    rw [stepWith_running hs, fetch_above hpc]
    rfl
  case hltAt255 =>
    have hop' : s.mem.get s.pc = 0x01 := hpc ▸ hop
    have hn : s.pc + numOperands (s.mem.get s.pc) ≤ 255 := by
      rw [hop', hpc]
      decide
    rw [stepWith_valid (k := fun _ _ => .hlt) hs hpc.le (hop' ▸ rfl), if_neg (by simpa using hn)]

/-! ### The PC update -/

/-- Settles O32: the engine moves PC past an instruction that leaves PC alone, and a control transfer has set it. -/
theorem pcAdvancesPastTheInstruction : Obligations.PcAdvancesPastTheInstruction := by
  unfold Obligations.PcAdvancesPastTheInstruction
  intro s t h hnf
  obtain ⟨c, _, rfl⟩ | ⟨i, u, hf, hh, rfl, _⟩ := step_raises_or_retires h
  · exact absurd rfl (hnf c)
  · obtain ⟨_, _, _, _, hn, _⟩ := fetch_ok hf
    rw [← opcode_fetch hf] at hn ⊢
    refine ⟨fun hp => ?plain, fun hp => ?transfer, retire_pc_le hh hn⟩
    case plain =>
      rw [retire_plain u i _ hp rfl, State.setPc_pc]
      obtain ⟨_, hpc⟩ | ⟨htrue, _⟩ := handle_ok_pc hh
      · rw [hpc, Nat.add_assoc]
      · rw [setsPc_opcode, htrue] at hp
        cases hp
    case transfer =>
      rw [State.retire, if_pos hp]
      obtain ⟨hfalse, _⟩ | ⟨_, hpc⟩ := handle_ok_pc hh
      · rw [setsPc_opcode, hfalse] at hp
        cases hp
      · exact hpc.imp_right And.right

/-! ### Which states have a step -/

/-- No meaning is refused and none stops the model (R112). -/
theorem exec_answers_next (i : Instr) (s : State) : ∃ t, exec i s = .next t := by
  rw [exec_eq_complete]
  cases hh : handle i s with
  | error c => exact ⟨_, rfl⟩
  | ok u => exact ⟨_, rfl⟩

/-- Settles O33: the fault of the fetch phase is a next state, and so is every answer of a meaning. -/
theorem runningStepAnswersANextState : Obligations.RunningStepAnswersANextState := by
  unfold Obligations.RunningStepAnswersANextState
  intro s hs
  cases hf : fetch Config.prefetchOobFault s with
  | error c => exact ⟨_, step_fetch_error hs hf⟩
  | ok i =>
    rw [step_fetch_ok hs hf]
    exact exec_answers_next i s

/-- Settles O34. -/
theorem terminalStatesHaveNoStep : Obligations.TerminalStatesHaveNoStep := by
  unfold Obligations.TerminalStatesHaveNoStep
  refine ⟨fun s hs => ?halted, fun s c hs => ?faulted⟩
  case halted => rw [step, stepWith, hs]
  case faulted => rw [step, stepWith, hs]

/-! ### How a run ends -/

/-- After every number of steps a run from Running is still Running, or it has ended on the way (R113). -/
theorem run_running_or_ended {s : State} (hs : s.status = .running) (k : Nat) :
    (∃ t, run k s = .next t ∧ t.status = .running) ∨ Halts s ∨ EndsFaulted s := by
  induction k with
  | zero => exact .inl ⟨s, run_zero s, hs⟩
  | succ k ih =>
    obtain ⟨t, hrun, ht⟩ | hended := ih
    · obtain ⟨u, hu⟩ := runningStepAnswersANextState t ht
      have hrun' : run (k + 1) s = .next u := (run_add hrun).trans (run_succ_next hu)
      cases hst : u.status with
      | running => exact .inl ⟨u, hrun', hst⟩
      | halted => exact .inr (.inl ⟨k + 1, u, hrun', hst⟩)
      | faulted c => exact .inr (.inr ⟨k + 1, u, c, hrun', hst⟩)
    · exact .inr hended

/-- No run goes on past a state that is not Running (R100). -/
theorem run_le_of_ended {j k : Nat} {s t u : State} (ht : run j s = .next t) (hend : t.status ≠ .running)
    (hu : run k s = .next u) : k ≤ j := by
  by_contra hlt
  obtain ⟨m, rfl⟩ : ∃ m, k = j + (m + 1) := ⟨k - j - 1, by omega⟩
  rw [run_add ht] at hu
  obtain ⟨_, hstep, _⟩ := run_succ_cases hu
  exact hend (step_next_cases hstep).1

/-- A run ends in one state at most. -/
theorem run_end_unique {j k : Nat} {s t u : State} (ht : run j s = .next t) (htend : t.status ≠ .running)
    (hu : run k s = .next u) (huend : u.status ≠ .running) : t = u := by
  obtain rfl : j = k := Nat.le_antisymm (run_le_of_ended hu huend ht) (run_le_of_ended ht htend hu)
  rw [ht] at hu
  cases hu
  rfl

/-- A run that has ended does not run for ever. -/
theorem not_runsForEver_of_ended {j : Nat} {s t : State} (ht : run j s = .next t) (hend : t.status ≠ .running) :
    ¬ RunsForEver s := fun hever =>
  have ⟨_, hu, _⟩ := hever (j + 1)
  Nat.not_succ_le_self j (run_le_of_ended ht hend hu)

/-- Settles O51: a run that does not go on for ever has ended at some number of steps, and no step follows its end. -/
theorem runEndsInExactlyOneWay : Obligations.RunEndsInExactlyOneWay := by
  unfold Obligations.RunEndsInExactlyOneWay
  refine fun s hs => ⟨?some, ?haltedOrFaulted, ?haltedOrNever, ?faultedOrNever⟩
  case some =>
    by_cases hended : Halts s ∨ EndsFaulted s
    · exact or_assoc.mp (.inl hended)
    · exact .inr (.inr fun k => (run_running_or_ended hs k).resolve_right hended)
  case haltedOrFaulted =>
    rintro ⟨⟨_, t, ht, hhalt⟩, ⟨_, u, c, hu, hfault⟩⟩
    obtain rfl := run_end_unique ht (by simp [hhalt]) hu (by simp [hfault])
    simp [hhalt] at hfault
  case haltedOrNever =>
    rintro ⟨⟨_, t, ht, hhalt⟩, hever⟩
    exact not_runsForEver_of_ended ht (by simp [hhalt]) hever
  case faultedOrNever =>
    rintro ⟨⟨_, t, c, ht, hfault⟩, hever⟩
    exact not_runsForEver_of_ended ht (by simp [hfault]) hever

end Sys2Proof.Machine

/-! PROOFS. 41_system_data.md: which step ends in Halted (R131), and HLT, LDI and PRN, each by its encoding, its effect
and its faults (R130, R133, R136). -/

namespace Sys2Proof.Machine

/-! ### What ends a run successfully -/

/-- A step ends in Halted exactly when it completes an HLT (R130, R131). -/
theorem step_halted_iff {s t : State} (h : step s = .next t) :
    t.status = .halted ↔ s.mem.get s.pc = 0x01 ∧ ∀ c, t.status ≠ .faulted c := by
  obtain ⟨c, _, rfl⟩ | ⟨i, u, hf, hh, rfl, hs, hnf⟩ := step_raises_or_retires h
  · simp
  · rw [State.retire_status] at hnf ⊢
    constructor
    · intro hu
      obtain rfl := handle_ok_halted hh hs hu
      exact ⟨(opcode_fetch hf).symm, hnf⟩
    · rintro ⟨hop, _⟩
      obtain rfl := fetch_ok_kind (k := fun _ _ => .hlt) hf hop rfl
      exact (handle_ok_effect hh).status

/-- Settles O37: a fault is not Halted, a step that retires halts only as an HLT, and a byte outside the table faults in
the decode phase. -/
theorem onlyHltHalts : Obligations.OnlyHltHalts := by
  unfold Obligations.OnlyHltHalts
  refine ⟨fun s t => step_halted_iff, fun s t h hpc hop => ?invalid⟩
  case invalid =>
    have hs := (step_next_cases h).1
    have hraise : step s = .next (s.raise (.invalidOpcode (s.mem.get s.pc) s.pc)) :=
      stepWith_invalid _ hop ⟨hs, hpc, rfl⟩
    rw [hraise] at h
    cases h
    exact ⟨_, rfl, rfl, rfl⟩

/-! ### The entries that every instruction's rule has -/

/-- The encoding entry of every instruction, with the bits of its opcode (R70, R71, R79). -/
theorem encodedAs (i : Instr) :
    EncodedAs i (opcode i) (operandBytes i) (routedThroughAlu i) (transfersControl i) := by
  refine ⟨rfl, ?decoded, (operandBytes_length i).symm, isAlu_opcode i, setsPc_opcode i⟩
  case decoded => simpa [encode] using decode_encode_append i []

/-- The declared operand bytes of every valid opcode are bounded by the top of memory (R103, R263). -/
theorem declaredBytesBounded {op : Byte} {n : Nat} (hop : op ∈ validOpcodes) (hn : numOperands op = n) :
    DeclaredBytesBounded op n := by
  rintro oob s ⟨hs, hpc, rfl⟩ hp
  obtain ⟨k, hd⟩ := dispatch_of_valid hop
  rw [stepWith_valid hs hpc hd, if_pos (.inl (hn ▸ hp)), State.raise]

/-- An instruction whose handler raises no fault answers the handler's state, retired (R106). -/
theorem exec_of_handle_ok {i : Instr} {s u : State} (h : handle i s = .ok u) : exec i s = .next (u.retire i) := by
  rw [exec_eq_complete, complete_ok h]

/-- An instruction whose handler raises a fault enters it (R270). -/
theorem exec_of_handle_error {i : Instr} {s : State} {c : Cause} (h : handle i s = .error c) :
    exec i s = .next (s.raise c) := by
  rw [exec_eq_complete, complete_error h]

/-! ### HLT -/

theorem exec_hlt (s : State) : exec .hlt s = .next (s.halt.setPc (s.pc + 1)) := by
  rw [exec_of_handle_ok (u := s.halt) rfl, retire_hlt, State.halt_pc]

/-- A step at an HLT byte: HLT declares no operand byte, so its only fetch fault is PREFETCH_OOB_FAULT's (R104). -/
theorem stepWith_hlt {s : State} (oob : Bool) (h : AtOpcode 0x01 s) :
    stepWith oob s =
      if oob = true ∧ 255 < s.pc + 2 then .next (s.raise (.memoryBounds 256 s.pc)) else exec .hlt s := by
  obtain ⟨hs, hpc, hop⟩ := h
  have hn : ¬ 255 < s.pc + numOperands (s.mem.get s.pc) := by
    rw [hop, show numOperands 0x01 = 0 by decide]
    omega
  rw [stepWith_valid (k := fun _ _ => .hlt) hs hpc (hop ▸ rfl)]
  simp only [hn, false_or]

/-- Settles O6: the two outcomes at 254 and 255 are the branches of `stepWith_hlt`. -/
theorem hltHaltsAfterAdvancingPc : Obligations.HltHaltsAfterAdvancingPc := by
  unfold Obligations.HltHaltsAfterAdvancingPc
  refine ⟨encodedAs .hlt, exec_hlt, fetchAboveMemoryFaults.1, fun s h hpc => ⟨?prefetchFault, ?noPrefetchFault⟩⟩
  case prefetchFault => rw [stepWith_hlt true h, if_pos ⟨rfl, by omega⟩, State.raise]
  case noPrefetchFault =>
    rw [stepWith_hlt false h, if_neg (fun hc => Bool.false_ne_true hc.1)]
    exact exec_hlt s

/-! ### LDI -/

theorem exec_ldi_regByte (r : Fin 8) (imm : Byte) (s : State) :
    exec (.ldi (regByte r) imm) s = .next ((s.setReg r imm).setPc (s.pc + 3)) := by
  have hh : handle (.ldi (regByte r) imm) s = .ok (s.setReg r imm) := by
    rw [handle, handleLdi, regIndex_regByte]
    rfl
  rw [exec_of_handle_ok hh, retire_ldi, State.setReg_pc]

theorem exec_ldi_above {a : Byte} (h : 7 < a.toNat) (imm : Byte) (s : State) :
    exec (.ldi a imm) s = .next (s.raise (.registerIndex a s.pc)) := by
  refine exec_of_handle_error ?_
  rw [handle, handleLdi, regIndex_above h]
  rfl

/-- Settles O7. -/
theorem ldiLoadsImmediate : Obligations.LdiLoadsImmediate := by
  unfold Obligations.LdiLoadsImmediate
  exact ⟨fun a imm => encodedAs (.ldi a imm), exec_ldi_regByte, fun _ imm s h => exec_ldi_above h imm s,
    declaredBytesBounded (by decide) (by decide)⟩

/-! ### PRN -/

theorem exec_prn_regByte (r : Fin 8) (s : State) :
    exec (.prn (regByte r)) s = .next ((s.emit (s.reg r)).setPc (s.pc + 2)) := by
  have hh : handle (.prn (regByte r)) s = .ok (s.emit (s.reg r)) := by
    rw [handle, handlePrn, regIndex_regByte]
    rfl
  rw [exec_of_handle_ok hh, retire_prn, State.emit_pc]

theorem exec_prn_above {a : Byte} (h : 7 < a.toNat) (s : State) :
    exec (.prn a) s = .next (s.raise (.registerIndex a s.pc)) := by
  refine exec_of_handle_error ?_
  rw [handle, handlePrn, regIndex_above h]
  rfl

/-- Settles O8. -/
theorem prnAppendsRegisterToOutput : Obligations.PrnAppendsRegisterToOutput := by
  unfold Obligations.PrnAppendsRegisterToOutput
  exact ⟨fun a => encodedAs (.prn a), exec_prn_regByte, fun _ s h => exec_prn_above h s,
    declaredBytesBounded (by decide) (by decide)⟩

end Sys2Proof.Machine

/-! PROOFS. 42_stack.md: PUSH and POP, each by its encoding, its effect and its faults (R150, R155), and pushes followed
by as many pops (R160). -/

namespace Sys2Proof.Machine

/-! ### PUSH -/

theorem exec_push_above {a : Byte} (h : 7 < a.toNat) (s : State) :
    exec (.push a) s = .next (s.raise (.registerIndex a s.pc)) := by
  refine exec_of_handle_error ?_
  rw [handle, handlePush, regIndex_above h]
  rfl

/-- PUSH of a register that SP leaves no room for (R150, R264). -/
theorem exec_push_zero {s : State} (r : Fin 8) (h : s.sp = 0) :
    exec (.push (regByte r)) s = .next (s.raise (.stackBounds 0 s.pc)) := by
  refine exec_of_handle_error ?_
  rw [handle, handlePush, regIndex_regByte, openSlot_zero h]
  rfl

/-- Settles O9: SP - 1 is the slot, and the register is read with SP there, which only PUSH R7 sees. -/
theorem pushStoresRegisterBelowSp : Obligations.PushStoresRegisterBelowSp := by
  unfold Obligations.PushStoresRegisterBelowSp
  refine ⟨fun a => encodedAs (.push a), fun r s hsp => ?effect, fun _ s h => exec_push_above h s,
    fun r s hsp => exec_push_zero r hsp, declaredBytesBounded (by decide) (by decide)⟩
  case effect =>
    have hslot : (pushSlot s).toNat = (s.reg 7).toNat - 1 := pushSlot_toNat hsp
    have hread : (s.setSp (pushSlot s)).reg r = if r = 7 then s.reg 7 - 1 else s.reg r := by
      rw [State.reg_setSp]
      exact if_congr eq_comm rfl rfl
    rw [exec_push_regByte r hsp, hread, ← hslot]
    rfl

/-! ### POP -/

theorem exec_pop_above {a : Byte} (h : 7 < a.toNat) (s : State) :
    exec (.pop a) s = .next (s.raise (.registerIndex a s.pc)) := by
  refine exec_of_handle_error ?_
  rw [handle, handlePop, regIndex_above h]
  rfl

/-- The value of SP that POP increments: for POP R7 the popped byte, which the write to the register put there
(R155). -/
def spAfterLoad (r : Fin 8) (s : State) : Byte := if r = 7 then s.load s.sp else s.sp

theorem spAfterLoad_sp (s : State) : spAfterLoad 7 s = s.load s.sp := if_pos rfl

theorem spAfterLoad_other {r : Fin 8} (h : r ≠ 7) (s : State) : spAfterLoad r s = s.sp := if_neg h

/-- POP where SP can move up (R155). -/
theorem exec_pop_regByte {r : Fin 8} {s : State} (h : spAfterLoad r s ≠ 255) :
    exec (.pop (regByte r)) s =
      .next (((s.setReg r (s.load s.sp)).setSp (spAfterLoad r s + 1)).setPc (s.pc + 2)) := by
  have hinc : increment (if r = Config.spIndex then s.load s.sp else s.sp) s = .ok (spAfterLoad r s + 1) :=
    increment_below h s
  have hh : handle (.pop (regByte r)) s = .ok ((s.setReg r (s.load s.sp)).setSp (spAfterLoad r s + 1)) := by
    simp only [handle, handlePop, regIndex_regByte, bind, Except.bind, hinc]
    rfl
  rw [exec_of_handle_ok hh, retire_pop, State.setSp_pc, State.setReg_pc]

/-- POP where SP would become 256 (R155, R264). -/
theorem exec_pop_max {r : Fin 8} {s : State} (h : spAfterLoad r s = 255) :
    exec (.pop (regByte r)) s = .next (s.raise (.stackBounds s.sp s.pc)) := by
  have hinc : increment (if r = Config.spIndex then s.load s.sp else s.sp) s = .error (.stackBounds s.sp s.pc) :=
    (congrArg (increment · s) h).trans (increment_max s)
  refine exec_of_handle_error ?_
  simp only [handle, handlePop, regIndex_regByte, bind, Except.bind, hinc]

/-- SP is written last, so what a write to R7 before it stored is gone. -/
theorem State.setReg_sp_setSp (s : State) (v w : Byte) : (s.setReg 7 v).setSp w = s.setSp w := by
  simp [State.setSp, State.setReg]

/-- Settles O10: POP R7 increments the popped byte, and POP of another register the old SP. -/
theorem popLoadsRegisterFromSp : Obligations.PopLoadsRegisterFromSp := by
  unfold Obligations.PopLoadsRegisterFromSp
  refine ⟨fun a => encodedAs (.pop a), fun r s hr hsp => ?other, fun s hv => ?sp, fun _ s h => exec_pop_above h s,
    fun r s hr hsp => ?otherFault, fun s hv => exec_pop_max ((spAfterLoad_sp s).trans hv),
    declaredBytesBounded (by decide) (by decide)⟩
  case other =>
    have hinc := spAfterLoad_other hr s
    rw [exec_pop_regByte (hinc ▸ hsp), hinc]
    rfl
  case sp =>
    have hinc := spAfterLoad_sp s
    rw [exec_pop_regByte (hinc ▸ hv), State.setReg_sp_setSp, hinc]
    rfl
  case otherFault =>
    rw [exec_pop_max ((spAfterLoad_other hr s).trans hsp), State.sp_eq_reg, hsp]
    rfl

/-! ### Pushes followed by pops -/

/-- The bytes `vs` are on the stack, the first of them at SP. -/
def StackHolds (s : State) (vs : List Byte) : Prop :=
  ∀ (k : Nat) (v : Byte), vs[k]? = some v → s.mem.get (s.sp.toNat + k) = v

theorem stackHolds_nil (s : State) : StackHolds s [] := nofun

/-- The part of the state that neither PUSH nor POP writes, PC left out. -/
structure SameStatusFlagsOutput (s t : State) : Prop where
  status : t.status = s.status
  fl : t.fl = s.fl
  out : t.out = s.out

theorem SameStatusFlagsOutput.trans {s t u : State} (h : SameStatusFlagsOutput s t) (h' : SameStatusFlagsOutput t u) :
    SameStatusFlagsOutput s u :=
  ⟨h'.status.trans h.status, h'.fl.trans h.fl, h'.out.trans h.out⟩

/-- What the pushes of the registers `rs` make of the state `s` with the bytes `vs` on its stack. -/
structure Pushed (rs : List (Fin 8)) (vs : List Byte) (s t : State) : Prop where
  sp : t.sp.toNat + rs.length = s.sp.toNat
  reg : ∀ r, r ≠ 7 → t.reg r = s.reg r
  stack : StackHolds t (rs.reverse.map s.reg ++ vs)
  same : SameStatusFlagsOutput s t

/-- One push of a register other than SP (R150). -/
theorem exec_push_pushed {r : Fin 8} {vs : List Byte} {s : State} (hw : s.mem.wf = true) (hr : r ≠ 7) (hsp : s.sp ≠ 0)
    (hs : StackHolds s vs) : ∃ t, exec (.push (regByte r)) s = .next t ∧ t.mem.wf = true ∧ Pushed [r] vs s t := by
  have hslot := pushSlot_toNat hsp
  have hpos : s.sp.toNat ≠ 0 := fun h0 => hsp (BitVec.eq_of_toNat_eq h0)
  refine ⟨_, exec_push_regByte r hsp, State.store_mem_wf (s.setSp _) _ _ hw, ?_⟩
  constructor
  case sp =>
    simp only [State.setPc_sp, State.store_sp, State.sp_setSp, List.length_singleton]
    omega
  case reg => exact fun j hj => State.reg_setSp_other s _ hj
  case stack =>
    intro k v hv
    simp only [State.setPc_mem, State.setPc_sp, State.store_sp, State.sp_setSp]
    cases k with
    | zero =>
      rw [Nat.add_zero, State.store_get (s.setSp _) _ _ hw, if_pos rfl, State.reg_setSp_other s _ hr]
      exact Option.some.inj hv
    | succ k =>
      rw [show (pushSlot s).toNat + (k + 1) = s.sp.toNat + k by omega, State.store_get_other _ _ _ (by omega)]
      exact hs k v hv
  case same => exact ⟨rfl, rfl, rfl⟩

/-- Pushes of registers other than SP, with room for them, all complete (R150). -/
theorem execAll_push {rs : List (Fin 8)} {vs : List Byte} {s : State} (hw : s.mem.wf = true) (h7 : 7 ∉ rs)
    (hroom : rs.length ≤ s.sp.toNat) (hs : StackHolds s vs) :
    ∃ t, execAll (rs.map fun r => .push (regByte r)) s = .next t ∧ Pushed rs vs s t := by
  induction rs generalizing s vs with
  | nil => exact ⟨s, rfl, rfl, fun _ _ => rfl, hs, ⟨rfl, rfl, rfl⟩⟩
  | cons r rs ih =>
    obtain ⟨hr, h7⟩ := List.ne_and_not_mem_of_not_mem_cons h7
    rw [List.length_cons] at hroom
    have hsp : s.sp ≠ 0 := fun h0 => by simp [h0] at hroom
    obtain ⟨u, hu, huw, hpush⟩ := exec_push_pushed hw hr.symm hsp hs
    have hspu : u.sp.toNat + 1 = s.sp.toNat := hpush.sp
    obtain ⟨t, ht, hpushes⟩ := ih huw h7 (by omega) hpush.stack
    have hvalues : rs.reverse.map u.reg = rs.reverse.map s.reg :=
      List.map_congr_left fun j hj => hpush.reg j fun h => h7 (h ▸ List.mem_reverse.mp hj)
    refine ⟨t, (execAll_cons hu).trans ht, ?_⟩
    constructor
    case sp =>
      rw [List.length_cons, ← hspu, ← hpushes.sp]
      omega
    case reg => exact fun j hj => (hpushes.reg j hj).trans (hpush.reg j hj)
    case stack => simpa [hvalues] using hpushes.stack
    case same => exact hpush.same.trans hpushes.same

/-- What the pops into the registers `rs` make of the state `s` with the bytes `vs` on its stack. -/
structure Popped (rs : List (Fin 8)) (vs : List Byte) (s t : State) : Prop where
  sp : t.sp.toNat = s.sp.toNat + rs.length
  reg : ∀ r, r ≠ 7 → r ∉ rs → t.reg r = s.reg r
  value : rs.Nodup → ∀ (k : Nat) (r : Fin 8) (v : Byte), rs[k]? = some r → vs[k]? = some v → t.reg r = v
  stack : StackHolds t (vs.drop rs.length)
  same : SameStatusFlagsOutput s t

/-- One pop into a register other than SP (R155). -/
theorem exec_pop_popped {r : Fin 8} {vs : List Byte} {s : State} (hr : r ≠ 7) (hsp : s.sp.toNat < 255)
    (hs : StackHolds s vs) : ∃ t, exec (.pop (regByte r)) s = .next t ∧ Popped [r] vs s t := by
  have hinc := spAfterLoad_other hr s
  have hmax : s.sp ≠ 255 := fun h => absurd (h ▸ hsp) (by decide)
  have hsp1 : (s.sp + 1).toNat = s.sp.toNat + 1 := BitVec.toNat_add_of_lt (by simp; omega)
  refine ⟨_, exec_pop_regByte (hinc.symm ▸ hmax), ?_⟩
  rw [hinc]
  constructor
  case sp => simpa using hsp1
  case reg =>
    intro j hj hjr
    rw [State.setPc_reg, State.reg_setSp_other _ _ hj]
    exact State.reg_setReg_other s r j _ fun h => hjr (h ▸ List.mem_singleton_self r)
  case value =>
    intro _ k j v hj hv
    cases k with
    | zero =>
      cases hj
      rw [State.setPc_reg, State.reg_setSp_other _ _ hr, State.reg_setReg_same]
      exact hs 0 v hv
    | succ k => cases hj
  case stack =>
    intro k v hv
    rw [List.length_singleton, List.getElem?_drop] at hv
    simp only [State.setPc_mem, State.setPc_sp, State.setSp_mem, State.sp_setSp, State.setReg_mem]
    rw [hsp1, Nat.add_assoc]
    exact hs (1 + k) v hv
  case same => exact ⟨rfl, rfl, rfl⟩

/-- Pops into registers other than SP, with room for SP to move up, all complete (R155). -/
theorem execAll_pop {rs : List (Fin 8)} {vs : List Byte} {s : State} (h7 : 7 ∉ rs)
    (hroom : s.sp.toNat + rs.length ≤ 255) (hs : StackHolds s vs) :
    ∃ t, execAll (rs.map fun r => .pop (regByte r)) s = .next t ∧ Popped rs vs s t := by
  induction rs generalizing s vs with
  | nil => exact ⟨s, rfl, rfl, fun _ _ _ => rfl, nofun, hs, ⟨rfl, rfl, rfl⟩⟩
  | cons r rs ih =>
    obtain ⟨hr, h7⟩ := List.ne_and_not_mem_of_not_mem_cons h7
    rw [List.length_cons] at hroom
    obtain ⟨u, hu, hpop⟩ := exec_pop_popped hr.symm (by omega) hs
    have hspu : u.sp.toNat = s.sp.toNat + 1 := hpop.sp
    obtain ⟨t, ht, hpops⟩ := ih h7 (by omega) hpop.stack
    refine ⟨t, (execAll_cons hu).trans ht, ?_⟩
    constructor
    case sp =>
      rw [hpops.sp, hspu, List.length_cons]
      omega
    case reg =>
      intro j hj hjrs
      obtain ⟨hjr, hjrs⟩ := List.ne_and_not_mem_of_not_mem_cons hjrs
      exact (hpops.reg j hj hjrs).trans (hpop.reg j hj fun h => hjr (List.mem_singleton.mp h))
    case value =>
      intro hnodup k j v hj hv
      obtain ⟨hrrs, hnodup⟩ := List.nodup_cons.mp hnodup
      cases k with
      | zero =>
        cases hj
        exact (hpops.reg r hr.symm hrrs).trans (hpop.value (List.nodup_singleton r) 0 r v rfl hv)
      | succ k => exact hpops.value hnodup k j v hj (by simpa [Nat.add_comm 1] using hv)
    case stack => simpa [Nat.add_comm 1] using hpops.stack
    case same => exact hpop.same.trans hpops.same

/-- Settles O48: the pushes leave their values on the stack in reverse, and as many pops take them from there. -/
theorem pushesThenPopsAreLastInFirstOut : Obligations.PushesThenPopsAreLastInFirstOut := by
  unfold Obligations.PushesThenPopsAreLastInFirstOut
  intro pushed popped s hw hpushed hpopped hlen hroom
  obtain ⟨u, hu, hpush⟩ := execAll_push hw hpushed hroom (stackHolds_nil s)
  have hsp := hpush.sp
  obtain ⟨t, ht, hpop⟩ := execAll_pop hpopped (by omega) hpush.stack
  obtain ⟨hstatus, hfl, hout⟩ := hpush.same.trans hpop.same
  refine ⟨t, (execAll_append hu).trans ht, BitVec.eq_of_toNat_eq ?sp, hstatus, hfl, hout,
    fun hnodup k r v hr hv => hpop.value hnodup k r (s.reg v) hr ?value⟩
  case sp => exact hpop.sp.trans (hlen ▸ hsp)
  case value =>
    rw [List.append_nil, List.getElem?_map, hv]
    rfl

end Sys2Proof.Machine

/-! PROOFS. 43_control_transfer.md: CALL, RET, JMP, JEQ and JNE, each by its encoding, its effect and its faults (R170,
R175, R180, R183, R187), a RET after its CALL (R191), and a JMP to itself (R180). -/

namespace Sys2Proof.Machine

/-! ### JMP, JEQ and JNE -/

/-- A control transfer whose handler jumps to a register (R180). -/
theorem exec_of_jumpTo {i : Instr} {r : Fin 8} {s : State} (hi : transfersControl i = true)
    (hh : handle i s = jumpTo (regByte r) s) : exec i s = .next (s.setPc (s.reg r).toNat) := by
  rw [exec_of_handle_ok (hh.trans (jumpTo_regByte r s)), State.retire, setsPc_opcode, if_pos hi]

/-- A jump through an operand byte that names no register (R180, R262). -/
theorem exec_of_jumpTo_above {i : Instr} {a : Byte} {s : State} (ha : 7 < a.toNat) (hh : handle i s = jumpTo a s) :
    exec i s = .next (s.raise (.registerIndex a s.pc)) :=
  exec_of_handle_error (hh.trans (jumpTo_above ha s))

theorem exec_jmp_regByte (r : Fin 8) (s : State) : exec (.jmp (regByte r)) s = .next (s.setPc (s.reg r).toNat) :=
  exec_of_jumpTo rfl rfl

/-- Settles O13. -/
theorem jmpSetsPcToRegister : Obligations.JmpSetsPcToRegister := by
  unfold Obligations.JmpSetsPcToRegister
  exact ⟨fun a => encodedAs (.jmp a), exec_jmp_regByte, fun _ _ h => exec_of_jumpTo_above h rfl,
    declaredBytesBounded (by decide) (by decide)⟩

theorem handle_jeq_equal {s : State} (h : s.fl.getLsbD 0 = true) (a : Byte) : handle (.jeq a) s = jumpTo a s :=
  if_pos h

theorem handle_jeq_unequal {s : State} (h : s.fl.getLsbD 0 = false) (a : Byte) :
    handle (.jeq a) s = .ok (s.setPc (s.pc + 2)) :=
  if_neg (ne_true_of_eq_false h)

/-- Settles O14: a JEQ that is taken is a jump, and one that is not never looks at its operand byte. -/
theorem jeqJumpsWhenEqual : Obligations.JeqJumpsWhenEqual := by
  unfold Obligations.JeqJumpsWhenEqual
  refine ⟨fun a => encodedAs (.jeq a), fun r s h => exec_of_jumpTo rfl (handle_jeq_equal h _), fun a s h => ?untaken,
    fun a s h ha => exec_of_jumpTo_above ha (handle_jeq_equal h a), declaredBytesBounded (by decide) (by decide)⟩
  case untaken =>
    rw [exec_of_handle_ok (handle_jeq_unequal h a), retire_jeq]
    rfl

theorem handle_jne_unequal {s : State} (h : s.fl.getLsbD 0 = false) (a : Byte) : handle (.jne a) s = jumpTo a s :=
  if_pos (congrArg not h)

theorem handle_jne_equal {s : State} (h : s.fl.getLsbD 0 = true) (a : Byte) :
    handle (.jne a) s = .ok (s.setPc (s.pc + 2)) :=
  if_neg (ne_true_of_eq_false (congrArg not h))

/-- Settles O15, as O14 with the flag the other way round. -/
theorem jneJumpsWhenNotEqual : Obligations.JneJumpsWhenNotEqual := by
  unfold Obligations.JneJumpsWhenNotEqual
  refine ⟨fun a => encodedAs (.jne a), fun r s h => exec_of_jumpTo rfl (handle_jne_unequal h _),
    fun a s h => ?untaken, fun a s h ha => exec_of_jumpTo_above ha (handle_jne_unequal h a),
    declaredBytesBounded (by decide) (by decide)⟩
  case untaken =>
    rw [exec_of_handle_ok (handle_jne_equal h a), retire_jne]
    rfl

/-! ### A JMP to itself -/

/-- A state that steps to itself is where every run from it stands. -/
theorem run_of_step_self {s : State} (h : step s = .next s) (k : Nat) : run k s = .next s := by
  induction k with
  | zero => exact run_zero s
  | succ k ih => rw [run_succ_next h, ih]

/-- A JMP to its own address, read up to address 253, steps to the state it ran in (R180). -/
theorem step_jmp_self {s : State} {r : Fin 8} (h : AtOpcode 0x54 s) (hpc : s.pc ≤ 253)
    (hoperand : s.mem.get (s.pc + 1) = regByte r) (htarget : (s.reg r).toNat = s.pc) : step s = .next s := by
  have hfetch : fetch Config.prefetchOobFault s = .ok (.jmp (regByte r)) := by
    rw [← hoperand]
    exact fetch_below (k := fun a _ => .jmp a) hpc (h.here ▸ rfl)
  rw [step_fetch_ok h.running hfetch, exec_jmp_regByte, htarget]
  rfl

/-- Settles O50: the one state the run is ever in is Running. -/
theorem jumpToItselfRunsForEver : Obligations.JumpToItselfRunsForEver := by
  unfold Obligations.JumpToItselfRunsForEver
  intro s r h hpc hoperand htarget
  have hrun := run_of_step_self (step_jmp_self h hpc hoperand htarget)
  refine ⟨hrun, fun k => ⟨s, hrun k, h.running⟩, ?safe⟩
  case safe =>
    rintro ⟨k, t, c, ht, hfault⟩
    obtain rfl : s = t := Host.Outcome.next.inj ((hrun k).symm.trans ht)
    rw [h.running] at hfault
    cases hfault

/-! ### CALL -/

/-- CALL with room for SP and for the return address (R170). -/
theorem exec_call_regByte {s : State} (r : Fin 8) (hsp : s.sp ≠ 0) (hpc : s.pc + 2 ≤ 255) :
    exec (.call (regByte r)) s =
      .next (((s.setSp (pushSlot s)).store (pushSlot s) (BitVec.ofNat 8 (s.pc + 2))).setPc
        ((s.setSp (pushSlot s)).reg r).toNat) := by
  refine (exec_of_handle_ok ?_).trans (congrArg Host.Outcome.next (retire_call _ _))
  rw [handle, handleCall, regIndex_regByte, openSlot_pos hsp, returnAddress_fits hpc]
  rfl

theorem exec_call_above {a : Byte} (h : 7 < a.toNat) (s : State) :
    exec (.call a) s = .next (s.raise (.registerIndex a s.pc)) := by
  refine exec_of_handle_error ?_
  rw [handle, handleCall, regIndex_above h]
  rfl

/-- CALL where SP leaves no room for the return address (R170, R264). -/
theorem exec_call_zero {s : State} (r : Fin 8) (h : s.sp = 0) :
    exec (.call (regByte r)) s = .next (s.raise (.stackBounds 0 s.pc)) := by
  refine exec_of_handle_error ?_
  rw [handle, handleCall, regIndex_regByte, openSlot_zero h]
  rfl

/-- CALL whose return address does not fit a byte (R170, R265). -/
theorem exec_call_noReturnAddress {s : State} (r : Fin 8) (hsp : s.sp ≠ 0) (hpc : 254 ≤ s.pc) :
    exec (.call (regByte r)) s = .next (s.raise (.returnAddress s.pc)) := by
  refine exec_of_handle_error ?_
  rw [handle, handleCall, regIndex_regByte, openSlot_pos hsp, returnAddress_above hpc]
  rfl

/-- Settles O11: the target is read with SP at the slot, which only CALL R7 sees. -/
theorem callPushesReturnAddressAndJumps : Obligations.CallPushesReturnAddressAndJumps := by
  unfold Obligations.CallPushesReturnAddressAndJumps
  refine ⟨fun a => encodedAs (.call a), fun r s hsp hpc => ?effect, fun _ s h => exec_call_above h s,
    fun r _ hsp => exec_call_zero r hsp, fun r _ hsp hpc => exec_call_noReturnAddress r hsp (by omega),
    declaredBytesBounded (by decide) (by decide)⟩
  case effect =>
    have hslot : (pushSlot s).toNat = (s.reg 7).toNat - 1 := pushSlot_toNat hsp
    have htarget : (s.setSp (pushSlot s)).reg r = if r = 7 then s.reg 7 - 1 else s.reg r := by
      rw [State.reg_setSp]
      exact if_congr eq_comm rfl rfl
    rw [exec_call_regByte r hsp hpc, htarget, ← hslot]
    rfl

/-! ### RET -/

/-- RET where SP can move up (R175). -/
theorem exec_ret {s : State} (h : s.sp ≠ 255) :
    exec .ret s = .next ((s.setSp (s.sp + 1)).setPc (s.load s.sp).toNat) := by
  refine (exec_of_handle_ok ?_).trans (congrArg Host.Outcome.next (retire_ret _))
  rw [handle, handleRet, increment_below h]
  rfl

/-- RET where SP would become 256 (R175, R264). -/
theorem exec_ret_max {s : State} (h : s.sp = 255) : exec .ret s = .next (s.raise (.stackBounds 255 s.pc)) := by
  refine exec_of_handle_error ?_
  rw [handle, handleRet, h, increment_max, h]
  rfl

/-- A step at an opcode without operand bytes: its only fetch fault past the opcode is PREFETCH_OOB_FAULT's (R104). -/
theorem stepWith_noOperands {op : Byte} {k : Byte → Byte → Instr} {s : State} (oob : Bool) (h : AtOpcode op s)
    (hd : dispatch op = some k) (hn : numOperands op = 0) :
    stepWith oob s =
      if oob = true ∧ 255 < s.pc + 2 then .next (s.raise (.memoryBounds 256 s.pc)) else exec (k 0 0) s := by
  obtain ⟨hs, hpc, rfl⟩ := h
  have hin : ¬ 255 < s.pc + numOperands (s.mem.get s.pc) := by omega
  rw [stepWith_valid hs hpc hd, kind_ignores_undeclared hd (a' := 0) (b' := 0) (by omega) (by omega)]
  simp only [hin, false_or]

/-- Settles O12: the two outcomes at 254 and 255 are the branches of `stepWith_noOperands`. -/
theorem retPopsPc : Obligations.RetPopsPc := by
  unfold Obligations.RetPopsPc
  refine ⟨encodedAs .ret, fun s => exec_ret, fun s => exec_ret_max, fun s h hpc => ?atTop⟩
  case atTop =>
    have hstep (oob : Bool) := stepWith_noOperands (k := fun _ _ => .ret) oob h rfl (by decide)
    constructor
    · rw [hstep true, if_pos ⟨rfl, by omega⟩, State.raise]
    · rw [hstep false, if_neg (fun hc => Bool.false_ne_true hc.1)]

/-! ### A RET after its CALL -/

/-- What a completed CALL at `s` leaves for a RET: the return address at SP, and room for SP to move back up to where it
was (R191). -/
structure Called (s t : State) : Prop where
  room : t.sp ≠ 255
  sp : t.sp + 1 = s.sp
  returnCell : (t.mem.get t.sp.toNat).toNat = s.pc + 2

/-- A CALL that answers a Running state has completed, since a fault is entered as Faulted (R170, R270). -/
theorem exec_call_called {a : Byte} {s t : State} (hw : s.mem.wf = true) (h : exec (.call a) s = .next t)
    (ht : t.status = .running) : Called s t := by
  obtain ⟨c, _, rfl⟩ | ⟨u, hu, rfl⟩ := exec_next_cases h
  · cases ht
  · obtain ⟨i, rfl, hsp, hpc, rfl⟩ := handleCall_ok hu
    have hslot := pushSlot_toNat hsp
    have hlt := s.sp.isLt
    rw [retire_call]
    constructor <;> simp only [State.setPc_sp, State.store_sp, State.sp_setSp, State.setPc_mem]
    case room =>
      intro hmax
      have : (pushSlot s).toNat = 255 := congrArg BitVec.toNat hmax
      omega
    case sp => exact BitVec.sub_add_cancel s.sp 1
    case returnCell =>
      rw [State.store_get (s.setSp _) _ _ hw, if_pos rfl, BitVec.toNat_ofNat]
      omega

/-- Settles O49: RET reads SP and the cell at SP, and both are as the CALL left them. -/
theorem retReturnsAfterTheCall : Obligations.RetReturnsAfterTheCall := by
  unfold Obligations.RetReturnsAfterTheCall
  intro a s t u hw hcall _ ht hsp hcell
  obtain ⟨hroom, hback, hreturn⟩ := exec_call_called hw hcall ht
  have husp : u.sp = t.sp := hsp
  refine ⟨_, exec_ret (husp ▸ hroom), ?pc, ?sp, rfl⟩
  case pc =>
    rw [State.setPc_pc, State.load, husp]
    exact (congrArg BitVec.toNat hcell).trans hreturn
  case sp =>
    rw [State.setPc_reg, State.reg_setSp, if_pos rfl, husp]
    exact hback

end Sys2Proof.Machine

/-! PROOFS. 44_compare.md: CMP, by its encoding, the flag it writes in each of the three cases and its faults (R200 to
R202). -/

namespace Sys2Proof.Machine

/-! ### The flags of a comparison -/

theorem compareFlags_of_eq {v w : Byte} (h : v = w) : compareFlags v w = 0b00000001 := if_pos h

theorem compareFlags_of_lt {v w : Byte} (h : v.toNat < w.toNat) : compareFlags v w = 0b00000100 := by
  have hne : v ≠ w := fun heq => Nat.ne_of_lt h (congrArg BitVec.toNat heq)
  rw [compareFlags, if_neg hne, if_pos h]

theorem compareFlags_of_gt {v w : Byte} (h : v.toNat > w.toNat) : compareFlags v w = 0b00000010 := by
  have hne : v ≠ w := fun heq => Nat.ne_of_gt h (congrArg BitVec.toNat heq)
  rw [compareFlags, if_neg hne, if_neg (Nat.lt_asymm h)]

/-! ### CMP -/

theorem exec_cmp_regByte (i j : Fin 8) (s : State) :
    exec (.cmp (regByte i) (regByte j)) s =
      .next ((s.setFl (compareFlags (s.reg i) (s.reg j))).setPc (s.pc + 3)) := by
  have hh : handle (.cmp (regByte i) (regByte j)) s = .ok (s.setFl (compareFlags (s.reg i) (s.reg j))) := by
    rw [handle, handleCmp, regIndex_regByte, regIndex_regByte]
    rfl
  rw [exec_of_handle_ok hh, retire_cmp, State.setFl_pc]

/-- A first operand byte that names no register faults, whatever the second one is (R200, R262). -/
theorem exec_cmp_above_left {a : Byte} (h : 7 < a.toNat) (b : Byte) (s : State) :
    exec (.cmp a b) s = .next (s.raise (.registerIndex a s.pc)) := by
  refine exec_of_handle_error ?_
  rw [handle, handleCmp, regIndex_above h]
  rfl

/-- The second operand byte is checked once the first one names a register (R200, R262). -/
theorem exec_cmp_above_right (i : Fin 8) {b : Byte} (h : 7 < b.toNat) (s : State) :
    exec (.cmp (regByte i) b) s = .next (s.raise (.registerIndex b s.pc)) := by
  refine exec_of_handle_error ?_
  rw [handle, handleCmp, regIndex_regByte, regIndex_above h]
  rfl

/-- Settles O16: each order of the two values gives its one flag. -/
theorem cmpOverwritesFlags : Obligations.CmpOverwritesFlags := by
  unfold Obligations.CmpOverwritesFlags
  refine ⟨fun a b => encodedAs (.cmp a b), fun i j s h => ?equal, fun i j s h => ?less, fun i j s h => ?greater,
    fun _ b s h => exec_cmp_above_left h b s, fun i _ s h => exec_cmp_above_right i h s,
    declaredBytesBounded (by decide) (by decide)⟩
  case equal => rw [exec_cmp_regByte, compareFlags_of_eq h, State.setFl, State.setPc]
  case less => rw [exec_cmp_regByte, compareFlags_of_lt h, State.setFl, State.setPc]
  case greater => rw [exec_cmp_regByte, compareFlags_of_gt h, State.setFl, State.setPc]

end Sys2Proof.Machine

/-! PROOFS. 45_alu.md: ADD, MUL, AND, OR, XOR, NOT, SHL and SHR, each by its encoding, its result and its faults (R220 to
R240). -/

namespace Sys2Proof.Machine

/-! ### Results -/

/-- A result is reduced modulo 256 by being stored in a byte (R220). -/
theorem byte_ofNat_mod (n : Nat) : BitVec.ofNat 8 (n % 256) = BitVec.ofNat 8 n :=
  BitVec.eq_of_toNat_eq (by simp)

theorem aluAdd_eq_sum (x y : Byte) : aluAdd x y = BitVec.ofNat 8 ((x.toNat + y.toNat) % 256) :=
  (byte_ofNat_mod _).symm

theorem aluMul_eq_product (x y : Byte) : aluMul x y = BitVec.ofNat 8 ((x.toNat * y.toNat) % 256) :=
  (byte_ofNat_mod _).symm

theorem aluNot_eq_complement (x : Byte) : aluNot x = BitVec.ofNat 8 (255 - x.toNat) := by
  have hfits : 255 - x.toNat < 2 ^ 8 := by omega
  refine BitVec.eq_of_toNat_eq ?_
  rw [aluNot, BitVec.toNat_not, BitVec.toNat_ofNat, Nat.mod_eq_of_lt hfits]

/-- A left shift multiplies by a power of two, however large the amount (R237). -/
theorem aluShl_eq_mul_pow (x y : Byte) : aluShl x y = BitVec.ofNat 8 ((x.toNat * 2 ^ y.toNat) % 256) := by
  rw [aluShl, Nat.shiftLeft_eq, byte_ofNat_mod]

/-- A logical right shift divides by a power of two, however large the amount (R240). -/
theorem aluShr_eq_div_pow (x y : Byte) : aluShr x y = BitVec.ofNat 8 (x.toNat / 2 ^ y.toNat) := by
  rw [aluShr, Nat.shiftRight_eq_div_pow]

/-! ### The operations on two registers -/

/-- The rule that the seven two-register operations share (R107, R222): the instruction `mk a b` is encoded as `op a b`,
writes `result` of the two registers to the first of them and moves PC past itself, checks A before B, and has two
declared operand bytes. -/
def BinaryAluRule (mk : Byte → Byte → Instr) (op : Byte) (result : Byte → Byte → Byte) : Prop :=
  (∀ a b, EncodedAs (mk a b) op [a, b] true false) ∧
  (∀ i j s, exec (mk (regByte i) (regByte j)) s = .next { s with
      regs := s.regs.set i (result (s.reg i) (s.reg j))
      pc := s.pc + 3 }) ∧
  (∀ a b s, 7 < a.toNat → exec (mk a b) s = .next { s with status := .faulted (.registerIndex a s.pc) }) ∧
  (∀ i b s, 7 < b.toNat → exec (mk (regByte i) b) s = .next { s with status := .faulted (.registerIndex b s.pc) }) ∧
  DeclaredBytesBounded op 2

/-- The encoding entry of an instruction says what its opcode is. -/
theorem EncodedAs.opcode_eq {i : Instr} {op : Byte} {operands : List Byte} {alu spc : Bool}
    (h : EncodedAs i op operands alu spc) : opcode i = op :=
  (List.cons.inj h.1).1

/-- The PC update of an encoded instruction that is no control transfer (R106). -/
theorem EncodedAs.retire_eq {i : Instr} {op : Byte} {operands : List Byte} {alu : Bool}
    (h : EncodedAs i op operands alu false) (t : State) : t.retire i = t.setPc (t.pc + (operands.length + 1)) := by
  have hop := h.opcode_eq
  obtain ⟨_, _, hn, _, hp⟩ := h
  exact retire_plain t i _ (hop ▸ hp) (hop ▸ hn)

/-- The declared operand bytes of an encoded instruction are bounded by the top of memory (R103, R263). -/
theorem EncodedAs.declaredBytesBounded {i : Instr} {op : Byte} {operands : List Byte} {alu spc : Bool}
    (h : EncodedAs i op operands alu spc) : DeclaredBytesBounded op operands.length := by
  have hop := h.opcode_eq
  obtain ⟨_, _, hn, _, _⟩ := h
  exact Machine.declaredBytesBounded ((mem_validOpcodes_iff op).2 ⟨i, hop⟩) hn

/-- An instruction whose handler is `binaryAlu` obeys the shared rule. -/
theorem binaryAluRule {mk : Byte → Byte → Instr} {op : Byte} {f result : Byte → Byte → Byte}
    (henc : ∀ a b, EncodedAs (mk a b) op [a, b] true false)
    (hh : ∀ a b s, handle (mk a b) s = binaryAlu f a b s) (hf : ∀ x y, f x y = result x y) :
    BinaryAluRule mk op result := by
  refine ⟨henc, fun i j s => ?effect, fun a b s ha => ?aboveA, fun i b s hb => ?aboveB,
    (henc 0 0).declaredBytesBounded⟩
  case effect =>
    rw [exec_of_handle_ok ((hh _ _ s).trans (binaryAlu_regByte f i j s)), (henc _ _).retire_eq, hf]
    rfl
  case aboveA => exact exec_of_handle_error ((hh a b s).trans (binaryAlu_aboveA ha f b s))
  case aboveB => exact exec_of_handle_error ((hh _ b s).trans (binaryAlu_aboveB hb f i s))

/-- Settles O17. -/
theorem addWritesSumModulo256 : Obligations.AddWritesSumModulo256 :=
  binaryAluRule (fun a b => encodedAs (.add a b)) (fun _ _ _ => rfl) aluAdd_eq_sum

/-- Settles O18. -/
theorem mulWritesLowByteOfProduct : Obligations.MulWritesLowByteOfProduct :=
  binaryAluRule (fun a b => encodedAs (.mul a b)) (fun _ _ _ => rfl) aluMul_eq_product

/-- Settles O19: the model's AND is the bitwise and by definition. -/
theorem andWritesBitwiseAnd : Obligations.AndWritesBitwiseAnd :=
  binaryAluRule (fun a b => encodedAs (.and a b)) (fun _ _ _ => rfl) (f := aluAnd) fun _ _ => rfl

/-- Settles O20: the model's OR is the bitwise or by definition. -/
theorem orWritesBitwiseOr : Obligations.OrWritesBitwiseOr :=
  binaryAluRule (fun a b => encodedAs (.or a b)) (fun _ _ _ => rfl) (f := aluOr) fun _ _ => rfl

/-- Settles O21: the model's XOR is the bitwise exclusive or by definition. -/
theorem xorWritesBitwiseXor : Obligations.XorWritesBitwiseXor :=
  binaryAluRule (fun a b => encodedAs (.xor a b)) (fun _ _ _ => rfl) (f := aluXor) fun _ _ => rfl

/-- Settles O23: the amount is the exponent of a power of two, unreduced. -/
theorem shlShiftsByFullAmount : Obligations.ShlShiftsByFullAmount :=
  binaryAluRule (fun a b => encodedAs (.shl a b)) (fun _ _ _ => rfl) aluShl_eq_mul_pow

/-- Settles O24: the amount is the exponent of a power of two, unreduced. -/
theorem shrShiftsLogicallyByFullAmount : Obligations.ShrShiftsLogicallyByFullAmount :=
  binaryAluRule (fun a b => encodedAs (.shr a b)) (fun _ _ _ => rfl) aluShr_eq_div_pow

/-! ### NOT -/

theorem exec_not_regByte (i : Fin 8) (s : State) :
    exec (.not (regByte i)) s = .next ((s.setReg i (aluNot (s.reg i))).setPc (s.pc + 2)) := by
  have hh : handle (.not (regByte i)) s = .ok (s.setReg i (aluNot (s.reg i))) := unaryAlu_regByte aluNot i s
  rw [exec_of_handle_ok hh, retire_not, State.setReg_pc]

theorem exec_not_above {a : Byte} (h : 7 < a.toNat) (s : State) :
    exec (.not a) s = .next (s.raise (.registerIndex a s.pc)) := by
  refine exec_of_handle_error ?_
  rw [handle, unaryAlu, regIndex_above h]
  rfl

/-- Settles O22: the complement is 255 minus the value. -/
theorem notWritesComplement : Obligations.NotWritesComplement := by
  unfold Obligations.NotWritesComplement
  refine ⟨fun a => encodedAs (.not a), fun i s => ?effect, fun _ s h => exec_not_above h s,
    declaredBytesBounded (by decide) (by decide)⟩
  case effect => rw [exec_not_regByte, aluNot_eq_complement, State.setReg, State.setPc]

end Sys2Proof.Machine

/-! PROOFS. 60_exceptions.md: which fault a step reports (R261 to R268), and that fault entry is precise (R269, R270). -/

namespace Sys2Proof.Machine

/-! ### The fault a check reports -/

/-- The fault that a check, an operand form or a handler raises, if it raises one. -/
def reported {α : Type} : Except Cause α → Option Cause
  | .error c => some c
  | .ok _ => none

/-- A check that comes first reports its fault; when it passes, what follows it decides. -/
theorem reported_bind {α β : Type} {x : Except Cause α} {f : α → Except Cause β} {p : Prop} [Decidable p] {c : Cause}
    {rest : Option Cause} (hx : reported x = if p then some c else none)
    (hf : ∀ v, x = .ok v → reported (f v) = rest) :
    reported (x >>= f) = if p then some c else rest := by
  cases x with
  | error d =>
    by_cases hp : p
    · rw [if_pos hp] at hx ⊢
      exact hx
    · rw [if_neg hp] at hx
      cases hx
  | ok v =>
    by_cases hp : p
    · rw [if_pos hp] at hx
      cases hx
    · rw [if_neg hp]
      exact hf v rfl

theorem reported_regIndex (a : Byte) (s : State) :
    reported (regIndex a s) = if 7 < a.toNat then some (.registerIndex a s.pc) else none := by
  split
  case isTrue h => rw [regIndex_above h, reported]
  case isFalse h =>
    rw [eq_regByte (Nat.lt_succ_of_le (Nat.not_lt.mp h)), regIndex_regByte, reported]

theorem reported_openSlot (s : State) :
    reported (openSlot s) = if s.sp = 0 then some (.stackBounds s.sp s.pc) else none := by
  unfold openSlot
  split <;> rfl

theorem reported_increment (v : Byte) (s : State) :
    reported (increment v s) = if v = 255 then some (.stackBounds s.sp s.pc) else none := by
  split
  case isTrue h => rw [h, increment_max, reported]
  case isFalse h => rw [increment_below h, reported]

theorem reported_returnAddress (s : State) :
    reported (returnAddress s) = if 255 < s.pc + 2 then some (.returnAddress s.pc) else none := by
  unfold returnAddress
  split <;> rfl

/-! ### The fault a handler reports -/

/-- LDI, PRN, JMP and NOT check the one register operand they access (R262). -/
theorem reported_oneRegister (a : Byte) (s : State) (g : Fin 8 → State) :
    reported (do let i ← regIndex a s; return g i : Handled) =
      if 7 < a.toNat then some (.registerIndex a s.pc) else none :=
  reported_bind (reported_regIndex a s) fun _ _ => rfl

/-- CMP and the two-operand ALU operations check A, then B (R262, R268). -/
theorem reported_twoRegisters (a b : Byte) (s : State) (g : Fin 8 → Fin 8 → State) :
    reported (do let i ← regIndex a s; let j ← regIndex b s; return g i j : Handled) =
      if 7 < a.toNat then some (.registerIndex a s.pc)
      else if 7 < b.toNat then some (.registerIndex b s.pc)
      else none :=
  reported_bind (reported_regIndex a s) fun _ _ => reported_oneRegister b s _

/-- A conditional jump checks its register when it is taken (R183, R187, R262). -/
theorem reported_branch (taken : Bool) (a : Byte) (s : State) :
    reported (branch taken a s) =
      if taken = true ∧ 7 < a.toNat then some (.registerIndex a s.pc) else none := by
  cases taken with
  | true =>
    simp only [true_and]
    exact reported_oneRegister a s _
  | false => simp [branch, reported]

theorem reported_handlePush (a : Byte) (s : State) :
    reported (handlePush a s) =
      if 7 < a.toNat then some (.registerIndex a s.pc)
      else if s.sp = 0 then some (.stackBounds s.sp s.pc)
      else none :=
  reported_bind (reported_regIndex a s) fun _ _ => reported_bind (reported_openSlot s) fun _ _ => rfl

theorem reported_handleCall (a : Byte) (s : State) :
    reported (handleCall a s) =
      if 7 < a.toNat then some (.registerIndex a s.pc)
      else if s.sp = 0 then some (.stackBounds s.sp s.pc)
      else if 255 < s.pc + 2 then some (.returnAddress s.pc)
      else none :=
  reported_bind (reported_regIndex a s) fun _ _ => reported_bind (reported_openSlot s) fun _ _ =>
    reported_bind (reported_returnAddress s) fun _ _ => rfl

theorem reported_handleRet (s : State) :
    reported (handleRet s) = if s.sp = 255 then some (.stackBounds s.sp s.pc) else none :=
  reported_bind (reported_increment s.sp s) fun _ _ => rfl

/-- POP checks the SP it increments, which for POP R7 is the popped byte (R155, R264). -/
theorem reported_handlePop (a : Byte) (s : State) :
    reported (handlePop a s) =
      if 7 < a.toNat then some (.registerIndex a s.pc)
      else if (if a = 7 then s.load s.sp else s.sp) = 255 then some (.stackBounds s.sp s.pc)
      else none := by
  refine reported_bind (reported_regIndex a s) fun i hi => ?_
  obtain rfl := regIndex_ok hi
  have hsp : i = Config.spIndex ↔ regByte i = 7 := ⟨fun h => h ▸ rfl, regByte_injective (j := 7)⟩
  refine reported_bind ?_ fun _ _ => rfl
  simp only [hsp]
  exact reported_increment _ s

/-! ### The checks of R268 -/

/-- The checks of R268 that come after the fetch phase, for the opcode `op` with the operand bytes `a` and `b`. -/
def handlerFault (op a b : Byte) (s : State) : Option Cause :=
  if accessesA op s.fl = true ∧ 7 < a.toNat then some (.registerIndex a s.pc)
  else if accessesB op = true ∧ 7 < b.toNat then some (.registerIndex b s.pc)
  else if (op = 0x45 ∨ op = 0x50) ∧ s.reg 7 = 0 then some (.stackBounds (s.reg 7) s.pc)
  else if op = 0x11 ∧ s.reg 7 = 255 then some (.stackBounds (s.reg 7) s.pc)
  else if op = 0x46 ∧ (if a = 7 then s.mem.get (s.reg 7).toNat else s.reg 7) = 255 then
    some (.stackBounds (s.reg 7) s.pc)
  else if op = 0x50 ∧ s.pc = 254 then some (.returnAddress s.pc)
  else none

/-- The fetch phase's fault is the first of R268's checks that applies (R101 to R104, R261, R263). -/
theorem firstFault_of_fetch_error {oob : Bool} {s : State} {c : Cause} (h : fetch oob s = .error c) :
    firstFault oob s = some c := by
  obtain ⟨hpc, rfl⟩ | ⟨hpc, hd, rfl⟩ | ⟨hpc, hd, hp, rfl⟩ := fetch_error h
  · rw [firstFault, if_pos hpc]
  · rw [firstFault, if_neg (Nat.not_lt.mpr hpc), if_pos ((dispatch_eq_none_iff _).mp hd)]
  · obtain ⟨k, hk⟩ := Option.ne_none_iff_exists'.mp hd
    have hn := numOperands_le_two hk
    rw [firstFault, if_neg (Nat.not_lt.mpr hpc), if_neg (mt (dispatch_eq_none_iff _).mpr hd)]
    obtain h255 | h254 : s.pc = 255 ∨ s.pc = 254 := by omega
    · rw [if_pos ⟨by omega, hp.imp (by omega) And.left⟩, h255]
    · rw [if_neg (by omega), if_pos ⟨by omega, hp.imp (by omega) And.left⟩, h254]

/-- Past the fetch phase none of its checks applies (R101 to R104). -/
theorem firstFault_of_fetch_ok {oob : Bool} {s : State} {i : Instr} (h : fetch oob s = .ok i) :
    firstFault oob s = handlerFault (opcode i) (s.mem.get (s.pc + 1)) (s.mem.get (s.pc + 2)) s := by
  obtain ⟨k, hd, -, hpc, hn, ho⟩ := fetch_ok h
  have hvalid : ¬ s.mem.get s.pc ∉ validOpcodes := by
    rw [← dispatch_eq_none_iff, hd]
    nofun
  have within (j : Nat) (hj : j ≤ 2) : ¬ (255 < s.pc + j ∧ (j ≤ numOperands (s.mem.get s.pc) ∨ oob = true)) := by
    rintro ⟨hlt, hdeclared | hoob⟩
    · omega
    · have := ho hoob
      omega
  rw [firstFault, if_neg (Nat.not_lt.mpr hpc), if_neg hvalid, if_neg (within 1 (by decide)),
    if_neg (within 2 (by decide)), opcode_fetch h, handlerFault]

/-- The declared operand bytes of what is fetched are the first of the two bytes after PC (R74, R103). -/
theorem operandBytes_fetch {oob : Bool} {s : State} {i : Instr} (h : fetch oob s = .ok i) :
    ∃ undeclared, operandBytes i ++ undeclared = [s.mem.get (s.pc + 1), s.mem.get (s.pc + 2)] := by
  obtain ⟨k, hd, rfl, -⟩ := fetch_ok h
  rw [operandBytes_kind hd]
  exact ⟨_, List.take_append_drop _ _⟩

/-- A handler reports the first of R268's later checks that applies, by the checks of each instruction's own rule. -/
theorem reported_handle {i : Instr} {s : State} {a b : Byte} {undeclared : List Byte}
    (hops : operandBytes i ++ undeclared = [a, b]) (hpc : s.pc + numOperands (opcode i) ≤ 255) :
    reported (handle i s) = handlerFault (opcode i) a b s := by
  cases i <;> simp only [operandBytes, List.cons_append, List.cons.injEq] at hops
  case hlt => simp [handle, handleHlt, reported, handlerFault, opcode, accessesA, accessesB]
  case ret =>
    rw [handle, reported_handleRet, State.sp_eq_reg]
    simp [handlerFault, opcode, accessesA, accessesB]
  case push =>
    obtain ⟨rfl, _⟩ := hops
    rw [handle, reported_handlePush, State.sp_eq_reg]
    simp [handlerFault, opcode, accessesA, accessesB]
  case pop =>
    obtain ⟨rfl, _⟩ := hops
    rw [handle, reported_handlePop, State.load, State.sp_eq_reg]
    simp [handlerFault, opcode, accessesA, accessesB]
  case call =>
    obtain ⟨rfl, _⟩ := hops
    have hn : numOperands 0x50 = 1 := by decide
    have hret : 255 < s.pc + 2 ↔ s.pc = 254 := by
      rw [opcode, hn] at hpc
      omega
    rw [handle, reported_handleCall, State.sp_eq_reg]
    simp [handlerFault, opcode, accessesA, accessesB, hret]
  case jeq | jne =>
    obtain ⟨rfl, _⟩ := hops
    rw [handle, reported_branch]
    simp [handlerFault, opcode, accessesA, accessesB, equalFlag]
  case prn | jmp | not =>
    obtain ⟨rfl, _⟩ := hops
    refine (reported_oneRegister _ s _).trans ?_
    simp [handlerFault, opcode, accessesA, accessesB]
  case ldi =>
    obtain ⟨rfl, rfl, _⟩ := hops
    refine (reported_oneRegister _ s _).trans ?_
    simp [handlerFault, opcode, accessesA, accessesB]
  all_goals
    obtain ⟨rfl, rfl, _⟩ := hops
    refine (reported_twoRegisters _ _ s _).trans ?_
    simp [handlerFault, opcode, accessesA, accessesB]

/-- What a step from Running reports is the first check of R268 that applies (R109, R268). -/
theorem firstFault_eq_reported (oob : Bool) (s : State) :
    firstFault oob s = reported (fetch oob s >>= (handle · s)) := by
  cases hf : fetch oob s with
  | error c => exact firstFault_of_fetch_error hf
  | ok i =>
    obtain ⟨_, _, _, _, hn, _⟩ := fetch_ok hf
    obtain ⟨_, hops⟩ := operandBytes_fetch hf
    rw [firstFault_of_fetch_ok hf]
    exact (reported_handle hops (opcode_fetch hf ▸ hn)).symm

/-- A handler's fault is the only way into Faulted for the meaning of an instruction (R270). -/
theorem exec_faulted_iff {i : Instr} {s t : State} (hs : s.status = .running) (h : exec i s = .next t) (c : Cause) :
    t.status = .faulted c ↔ reported (handle i s) = some c := by
  obtain ⟨d, hd, rfl⟩ | ⟨u, hu, rfl⟩ := exec_next_cases h
  · simp [hd, reported]
  · simpa [hu, reported] using handle_ok_status_ne_faulted hu hs c

/-- A step from Running ends in Faulted with what its fetch phase, or else its handler, reports (R109, R270). -/
theorem stepWith_faulted_iff {oob : Bool} {s t : State} (hs : s.status = .running) (h : stepWith oob s = .next t)
    (c : Cause) : t.status = .faulted c ↔ reported (fetch oob s >>= (handle · s)) = some c := by
  rw [stepWith_running hs] at h
  cases hf : fetch oob s with
  | error d =>
    rw [hf] at h
    cases h
    simp [bind, Except.bind, reported]
  | ok i =>
    rw [hf] at h
    exact exec_faulted_iff hs h c

/-- Settles O35: the checks of the fetch phase and of each handler are R268's, in R268's order. -/
theorem reportedFaultIsTheFirstInOrder : Obligations.ReportedFaultIsTheFirstInOrder := by
  unfold Obligations.ReportedFaultIsTheFirstInOrder
  intro oob s t hs h c
  rw [stepWith_faulted_iff hs h, firstFault_eq_reported]

/-! ### Fault entry -/

/-- Settles O36: a step that ends in Faulted has raised a fault that records its PC, and Faulted has no step. -/
theorem faultsArePrecise : Obligations.FaultsArePrecise := by
  unfold Obligations.FaultsArePrecise
  intro s t c h ht
  obtain ⟨d, hpc, rfl⟩ | ⟨_, _, _, _, _, _, hnf⟩ := step_raises_or_retires h
  · cases ht
    refine ⟨rfl, hpc, fun u hu => ?noStep⟩
    case noStep =>
      rw [terminalStatesHaveNoStep.2 _ c (State.raise_status s c)] at hu
      cases hu
  · exact absurd ht (hnf c)

end Sys2Proof.Machine

/-! PROOFS. 70_reset_and_hazards.md: what reset sets (R291), and the invariant there. -/

namespace Sys2Proof.Machine

/-! ### The registers after reset -/

/-- SP starts at its fixed reset value (R12, R23). -/
@[simp] theorem State.resetWith_reg_seven (g : Vector Byte 7) (f : Byte) (image : Vector Byte 256) :
    (State.resetWith g f image).reg 7 = Config.spReset := Vector.getElem_push_eq

/-- R0..R6 start at INIT_GPR (R13). -/
@[simp] theorem State.resetWith_reg_castSucc (g : Vector Byte 7) (f : Byte) (image : Vector Byte 256) (r : Fin 7) :
    (State.resetWith g f image).reg r.castSucc = g[r] := Vector.getElem_push_lt r.isLt

/-- Settles O46: memory is the image read back (R21), SP lies behind the seven registers of INIT_GPR, and the other
fields are the ones reset gives. -/
theorem resetSetsEveryPieceOfState : Obligations.ResetSetsEveryPieceOfState := by
  unfold Obligations.ResetSetsEveryPieceOfState
  intro g f m
  refine ⟨fun a => ?mem, State.resetWith_reg_seven g f m, State.resetWith_reg_castSucc g f m, rfl, rfl, rfl, rfl⟩
  case mem => rw [State.resetWith_mem, Memory.get_ofImage]

/-! ### The invariant -/

/-- The loaded image is canonical, PC is 0, and STATUS is Running, so no fault and no halt is recorded (R291). -/
theorem State.resetWith_inv (g : Vector Byte 7) (f : Byte) (image : Vector Byte 256) :
    (State.resetWith g f image).Inv where
  memCanonical := State.resetWith_mem_wf g f image
  pcReachable := Nat.zero_le 256
  faultPrecise c h := by cases h
  haltAdvanced h := by cases h

/-- Settles O44: the model's own reset is one of the states that reset gives. -/
theorem resetMeetsTheInvariant : Obligations.ResetMeetsTheInvariant := by
  unfold Obligations.ResetMeetsTheInvariant
  refine ⟨State.resetWith_inv, ?reference⟩
  case reference =>
    rw [modelResetIsTheReferenceConfiguration]
    exact State.resetWith_inv _ _ _

end Sys2Proof.Machine
